-- ==== Sys2Proof/Word.lean ====
section
/-! DEFINITION. The word types of the block: 32-bit registers, command words and buffer addresses, and bytes. -/

namespace Sys2Proof

/-- A host register, a command word or a buffer address: `REG_W` = `LEN_W` = `ADDR_W` = 32 (00_scope.md R7). -/
abbrev Word := BitVec 32

/-- One byte of buffer memory (R11, R42). -/
abbrev Byte := BitVec 8

end Sys2Proof
end

