-- ==== Sys2Proof/Syntax.lean ====
section
/-! DEFINITION. The commands of the block, one constructor per row of the opcode table, and the host's side of its
programs: registers, host accesses and program lines. -/

namespace Sys2Proof

/-- The channel register sets CH0 and CH1 (10_state.md R13). -/
inductive Channel where
  | ch0 | ch1
  deriving DecidableEq, Repr

/-- The six commands (30_encoding.md R67). A `code` is the 4-bit ADPCM code (R61); a `sample` is an integer that must lie
in [-32768, 32767] (R66; `wellFormed`). -/
inductive Instr where
  /-- R70 -/
  | nop
  /-- 40_channel_codec.md R85 -/
  | chreset (ch : Channel)
  /-- R86 -/
  | decstep (ch : Channel) (code : BitVec 4)
  /-- R87 -/
  | encstep (ch : Channel) (sample : Int)
  /-- 41_stream_codec.md R104 -/
  | encode
  /-- R107 -/
  | decode
  deriving DecidableEq, Repr

/-- The host registers (10_state.md R20). -/
inductive Reg where
  | cmd | status | cfg | inBase | inLen | outBase | outCap | outLen | result | ch0State | ch1State
  deriving DecidableEq, Repr

/-- One access of the host, or the platform's reset: one transition of the model (20_memory.md R53, 70_reset_and_hazards.md
R140, R146). `off` is an offset in the 0x40-byte register window (R20); `bytes` is the access width. -/
inductive HostAccess where
  /-- A read of the register window. -/
  | regRead (off : BitVec 6) (bytes : Nat)
  /-- A write of the register window; a write to CMD runs a command (R21). -/
  | regWrite (off : BitVec 6) (bytes : Nat) (value : Word)
  /-- A host read of one byte of buffer memory. -/
  | memRead (addr : Word)
  /-- A host write of one byte of buffer memory. -/
  | memWrite (addr : Word) (value : Byte)
  /-- The platform asserts reset (R140). -/
  | reset
  deriving DecidableEq, Repr

/-- A line of a program (30_encoding.md R72), pseudo-instructions included (R73). -/
inductive AsmLine where
  | wr (r : Reg) (value : Word)
  | rd (r : Reg)
  | cmd (i : Instr)
  | mono
  | stereo
  | setin (base len : Word)
  | setout (base cap : Word)
  | resetall
  | clrsticky
  deriving DecidableEq, Repr

end Sys2Proof
end

