-- ==== Sys2Proof/WellFormed.lean ====
section
/-! DEFINITION. Which commands can be encoded: the sample of ENCSTEP is a 16-bit signed integer. -/

namespace Sys2Proof

/-- A PCM sample is an integer in [-32768, 32767] (30_encoding.md R60, R66, R72). -/
def sampleInRange (s : Int) : Bool := decide (-32768 ≤ s) && decide (s ≤ 32767)

/-- The operand ranges of R66 that the types of `Instr` do not already carry. -/
def wellFormed : Instr → Bool
  | .nop => true
  | .chreset _ => true
  | .decstep _ _ => true
  | .encstep _ sample => sampleInRange sample
  | .encode => true
  | .decode => true

end Sys2Proof
end

