-- ==== Sys2Proof/Decode.lean ====
section
/-! DEFINITION. The command decoder, total on every 32-bit word and refusing by name, and the encoder. -/

namespace Sys2Proof

/-- Why a word is no command. Either way the block reports ERR_ILLEGAL (60_exceptions.md R122). -/
inductive DecodeError where
  /-- `OP` in 0x6 to 0xF (30_encoding.md R69). -/
  | reservedOpcode
  /-- A reserved or must-be-zero bit is set (R68). -/
  | reservedBits
  deriving DecidableEq, Repr

/-- `OP`, `w[31:28]` (R66). -/
def opField (w : Word) : BitVec 4 := w.extractLsb' 28 4

/-- The reserved field `w[27:25]` (R66). -/
def reservedHigh (w : Word) : BitVec 3 := w.extractLsb' 25 3

/-- `CH`, `w[24]`: 0 is CH0, 1 is CH1 (R66). -/
def channelField (w : Word) : Channel := if w.getLsbD 24 then .ch1 else .ch0

/-- The reserved field `w[23:16]` (R66). -/
def reservedMid (w : Word) : BitVec 8 := w.extractLsb' 16 8

/-- `DATA`, `w[15:0]` (R66). -/
def dataField (w : Word) : BitVec 16 := w.extractLsb' 0 16

/-- The instruction, provided that the bits R67 fixes at 0 are all 0 (R68). -/
def requireZero (zeroBits : Bool) (i : Instr) : Except DecodeError Instr :=
  if zeroBits then .ok i else .error .reservedBits

/-- The decoder "tests `OP` and then that every 'must be 0' bit is 0" (R67). -/
def decode (w : Word) : Except DecodeError Instr :=
  let reservedZero := reservedHigh w == 0 && reservedMid w == 0
  let noOperand := w.extractLsb' 0 28 == 0
  if opField w = 0x0 then requireZero noOperand .nop
  else if opField w = 0x1 then requireZero (reservedZero && dataField w == 0) (.chreset (channelField w))
  else if opField w = 0x2 then
    requireZero (reservedZero && w.extractLsb' 4 12 == 0) (.decstep (channelField w) (w.extractLsb' 0 4))
  else if opField w = 0x3 then requireZero reservedZero (.encstep (channelField w) (dataField w).toInt)
  else if opField w = 0x4 then requireZero noOperand .encode
  else if opField w = 0x5 then requireZero noOperand .decode
  else .error .reservedOpcode

/-- The bit of the `CH` field (R66). -/
def channelBit : Channel → BitVec 1
  | .ch0 => 0
  | .ch1 => 1

/-- The one command format: `OP || 000 || CH || 00000000 || DATA` (R66). -/
def commandWord (op : BitVec 4) (ch : BitVec 1) (data : BitVec 16) : Word :=
  op ++ 0#3 ++ ch ++ 0#8 ++ data

/-- The word of a command (R67); the assembler's encoding (R72). -/
def encode : Instr → Word
  | .nop => commandWord 0x0 0 0
  | .chreset ch => commandWord 0x1 (channelBit ch) 0
  | .decstep ch code => commandWord 0x2 (channelBit ch) (code.setWidth 16)
  | .encstep ch sample => commandWord 0x3 (channelBit ch) (BitVec.ofInt 16 sample)
  | .encode => commandWord 0x4 0 0
  | .decode => commandWord 0x5 0 0

/-- The command word whose low `nbits` bits are those of `w` and whose other bits are 0. Every command is one 32-bit word
(R71), so the opcode table's bit numbers are the word's own. -/
def tableWord (nbits w : Nat) : Word := BitVec.ofNat 32 (w % 2 ^ nbits)

/-- What the decoder reads from a row's bits, numbered as spec/opcode_table.json numbers them. -/
def decodeTableWord (nbits w : Nat) : Option Instr :=
  match decode (tableWord nbits w) with
  | .ok i => some i
  | .error _ => none

end Sys2Proof
end

