-- ==== Sys2Proof/Config.lean ====
section
/-! DEFINITION. What an implementation of the block fixes: the step-size table and the base of the register window. -/

namespace Sys2Proof

/-- The candidate `STEP_TABLE` that 10_state.md R17 names and 95_test_vectors.md uses. The spec takes it from general
knowledge, not from its source; the model uses it in tests only (log entry 1). -/
def candidateSteps : Vector Nat 49 :=
  #v[16, 17, 19, 21, 23, 25, 28, 31, 34, 37, 41, 45, 50, 55, 60, 66,
    73, 80, 88, 97, 107, 118, 130, 143, 157, 173, 190, 209, 230, 253, 279, 307,
    337, 371, 408, 449, 494, 544, 598, 658, 724, 796, 876, 963, 1060, 1166, 1282, 1411,
    1552]

/-- A legal `STEP_TABLE` (00_scope.md R8, 10_state.md R17): `steps[0..48]`, every entry positive, strictly increasing.
The proof fields make an illegal table unbuildable. The field defaults only show that a legal table exists. -/
structure StepTable where
  entries : Vector Nat 49 := candidateSteps
  positive : ∀ v ∈ entries.toList, 1 ≤ v := by decide
  increasing : entries.toList.Pairwise (· < ·) := by decide
  deriving DecidableEq, Repr, Inhabited

/-- The table of the spec's test vectors (95_test_vectors.md), for tests. -/
def StepTable.candidate : StepTable := { entries := candidateSteps }

/-- `STEP_TABLE` of this block (92_eei_decisions.md D1: OPEN). It has no body, so nothing can be proved of its entries but
that they are legal (log entry 1). -/
opaque Config.stepTable : StepTable

/-- Which 0x40-byte block of the platform's address space holds the register window (92_eei_decisions.md D27: OPEN;
log entry 7). -/
opaque Config.regBlock : Nat

/-- `REG_BASE`, "a 0x40-aligned address supplied by the platform" (D27; 10_state.md R20): aligned by construction. -/
def Config.regBase : Nat := 0x40 * Config.regBlock

/-- `MEM_FAULT` under the spec's default: no buffer access fails (D15: "default: none"; 20_memory.md R50;
log entry 3). -/
def Config.memFault : List Nat := []

end Sys2Proof
end

