-- ==== Sys2Proof/Machine/State.lean ====
section
/-! DEFINITION. The state of the block, its faults and refusals, its command errors, and the state after reset. -/

namespace Sys2Proof.Machine

/-- Why the machine stops with a fault. -/
inductive Fault where
  /-- A step-table lookup with SI > 48. Raised by DecodeUpdate and EncodeQuantize, so by DECSTEP and ENCSTEP, "a
  programming-error class fault" (40_channel_codec.md R80, 60_exceptions.md R126). Safe: no reachable state raises it
  (10_state.md R14). -/
  | stepIndexOutOfRange
  /-- A buffer access at an address of MEM_FAULT. Raised by ENCODE and DECODE (92_eei_decisions.md D15: "a model must then
  fault the command"). Safe: under the spec's default MEM_FAULT, none, it is never raised (20_memory.md R50). -/
  | bufferAccess
  deriving DecidableEq, Repr

/-- Why the model gives an access no meaning. -/
inductive Refusal where
  /-- An instruction without a meaning yet; raised by no arm of `exec`. Safe. -/
  | notModelled (mnemonic : String)
  /-- A host register access that is not an aligned 32-bit one; raised by the register window (10_state.md R31: "a model
  refuses it"). Safe. -/
  | registerAccess
  deriving DecidableEq, Repr

/-- The command errors (60_exceptions.md R122), in the order of their priority (R123). -/
inductive CmdError where
  | illegal | chan | len | cap | range | overlap
  deriving DecidableEq, Repr

/-- One channel register set: the step index, 6 bits unsigned, and the predicted sample, 16 bits two's complement
(10_state.md R13). -/
structure ChannelRegs where
  si : BitVec 6
  pred : BitVec 16
  deriving DecidableEq, Repr

/-- The value of a channel at reset: SI = 0, PRED = 0 (10_state.md R15). -/
def ChannelRegs.initial : ChannelRegs := { si := 0, pred := 0 }

/-- Buffer memory as address and byte pairs in one canonical form (`Memory.wf`). -/
abbrev Memory := List Host.Cell

/-- Everything the spec gives the block, and four fields for its surroundings. -/
structure State where
  /-- CH[0] (R13). -/
  ch0 : ChannelRegs
  /-- CH[1] (R13). -/
  ch1 : ChannelRegs
  /-- STATUS.ERR, bits 3:0 (R22). -/
  err : BitVec 4
  /-- STATUS.STICKY, bit 4 (R22). -/
  sticky : Bool
  /-- CFG.CHANNELS, bits 1:0 (R23). -/
  channels : BitVec 2
  /-- IN_BASE (R24). -/
  inBase : Word
  /-- IN_LEN (R25). -/
  inLen : Word
  /-- OUT_BASE (R26). -/
  outBase : Word
  /-- OUT_CAP (R27). -/
  outCap : Word
  /-- OUT_LEN (R28). -/
  outLen : Word
  /-- RESULT (R30). -/
  result : Word
  /-- The step-size table steps[0..48], constant (R17, R19); the parameter STEP_TABLE (R8). -/
  steps : StepTable
  /-- Buffer memory (20_memory.md R40). -/
  mem : Memory
  /-- The model's own: the addresses at which the block's buffer accesses fail, MEM_FAULT (92_eei_decisions.md D15). -/
  memFault : List Nat
  /-- The model's own: the host's accesses still to come, oldest first (20_memory.md R53). -/
  pending : List HostAccess
  /-- The model's own: what the host's latest read returned. -/
  readData : Word
  deriving DecidableEq, Repr

/-- The state after reset of a block with a given STEP_TABLE and MEM_FAULT: the values of 70_reset_and_hazards.md R141;
nothing is listed in memory (log entry 2), no access is pending (log entry 4), nothing was read yet (log entry 5). -/
def State.resetWith (steps : StepTable) (memFault : List Nat) : State where
  ch0 := ChannelRegs.initial
  ch1 := ChannelRegs.initial
  err := 0
  sticky := false
  channels := 1
  inBase := 0
  inLen := 0
  outBase := 0
  outCap := 0
  outLen := 0
  result := 0
  steps := steps
  mem := []
  memFault := memFault
  pending := []
  readData := 0

/-- The machine right after reset (R141). The table is the opaque `Config.stepTable`: a parameter (R8; log entry 1). -/
def State.reset : State := State.resetWith Config.stepTable Config.memFault

end Sys2Proof.Machine
end

