-- ==== Sys2Proof/Machine/Flags.lean ====
section
/-! DEFINITION. The block's only flags, STATUS.ERR and STATUS.STICKY: error codes, failure, success, clearing, and the
STATUS word. -/

namespace Sys2Proof.Machine

/-- `STATUS.ERR` of each command error (60_exceptions.md R122). -/
def CmdError.code : CmdError → BitVec 4
  | .illegal => 1
  | .chan => 2
  | .len => 3
  | .cap => 4
  | .range => 5
  | .overlap => 6

/-- `STATUS` as the host reads it: ERR in 3:0, STICKY in 4, 31:5 read 0 (10_state.md R22). -/
def statusWord (err : BitVec 4) (sticky : Bool) : Word := 0#27 ++ BitVec.ofBool sticky ++ err

/-- STICKY after a host write of `v` to `STATUS`: bit 4 of `v` clears it, every other bit is ignored (R22). -/
def stickyAfterWrite (v : Word) (sticky : Bool) : Bool := if v.getLsbD 4 then false else sticky

end Sys2Proof.Machine
end

