-- ==== Sys2Proof/Machine/Operands.lean ====
section
/-! DEFINITION. The data formats and operand forms: PCM samples, ADPCM codes and bytes, layouts, clamping, and the two
constant tables. -/

namespace Sys2Proof.Machine

/-- `clamp(x, lo, hi) = max(lo, min(hi, x))` (00_scope.md R9). -/
def clamp (x lo hi : Int) : Int := max lo (min hi x)

/-- The index-delta table, 16 entries indexed by the whole code (10_state.md R18). -/
def indexDeltas : Vector Int 16 :=
  #v[-1, -1, -1, -1, 2, 4, 6, 8, -1, -1, -1, -1, 2, 4, 6, 8]

/-- `index_deltas[code]`, always in range since a code is 4 bits (40_channel_codec.md R81). -/
def indexDelta (code : BitVec 4) : Int := indexDeltas[code.toNat]'(code.isLt)

/-- `steps[SI]`; an index above 48 is the programming-error fault of 40_channel_codec.md R80. -/
def lookupStep (t : StepTable) (si : BitVec 6) : Except Fault Nat :=
  if h : si.toNat < 49 then .ok (t.entries[si.toNat]'h) else .error .stepIndexOutOfRange

/-- `mag(code)`: the constant term and the terms of bits 0, 1, 2, each shift a floor taken before the sum
(30_encoding.md R62). -/
def codeMagnitude (step : Nat) (code : BitVec 4) : Nat :=
  (step >>> 3) + (if code.getLsbD 0 then step >>> 2 else 0) + (if code.getLsbD 1 then step >>> 1 else 0)
    + (if code.getLsbD 2 then step else 0)

/-- `delta(code)`: the magnitude, negated when bit 3 is set (R62). -/
def codeDelta (step : Nat) (code : BitVec 4) : Int :=
  if code.getLsbD 3 then -(codeMagnitude step code : Int) else codeMagnitude step code

/-- `sext_16(bits_8(hi) || bits_8(lo))` (20_memory.md R44). -/
def sampleOfBytes (lo hi : Byte) : Int := (hi ++ lo : BitVec 16).toInt

/-- The low byte of a stored sample, `w[7:0]` (20_memory.md R45). -/
def sampleLow (p : BitVec 16) : Byte := p.extractLsb' 0 8

/-- The high byte of a stored sample, `w[15:8]` (R45). -/
def sampleHigh (p : BitVec 16) : Byte := p.extractLsb' 8 8

/-- The two nibbles of an ADPCM byte (30_encoding.md R63), in the order they are processed. -/
inductive Nibble where
  | high | low
  deriving DecidableEq, Repr

/-- The number `h` of the pseudocode: 0 = high nibble, 1 = low nibble (41_stream_codec.md R104). -/
def Nibble.index : Nibble → Nat
  | .high => 0
  | .low => 1

/-- The code in a nibble of a byte: `(b >> 4) & 0xF` or `b & 0xF` (R63). -/
def Nibble.extract (h : Nibble) (b : Byte) : BitVec 4 :=
  match h with
  | .high => ((b >>> 4) &&& 0xF).setWidth 4
  | .low => (b &&& 0xF).setWidth 4

/-- A code in its half of an otherwise zero byte: shifted left by 4, or unshifted (R63). -/
def Nibble.place (h : Nibble) (code : BitVec 4) : Byte :=
  match h with
  | .high => code.setWidth 8 <<< 4
  | .low => code.setWidth 8

/-- The two layouts (30_encoding.md R64, R65). -/
inductive Layout where
  | mono | stereo
  deriving DecidableEq, Repr

/-- The layout of a channel count; 0 and 3 have none (10_state.md R23, 41_stream_codec.md R100). -/
def layoutOf (channels : BitVec 2) : Option Layout :=
  if channels = 1 then some .mono else if channels = 2 then some .stereo else none

/-- `c <- (n = 1) ? 0 : h` (41_stream_codec.md R101, R102). -/
def Layout.channel (lay : Layout) (h : Nibble) : Channel :=
  match lay, h with
  | .mono, _ => .ch0
  | .stereo, .high => .ch0
  | .stereo, .low => .ch1

/-- The two stream commands' directions (R100). -/
inductive Direction where
  | enc | dec
  deriving DecidableEq, Repr

/-- The exact output length: `ceil(IN_LEN / 4)` when encoding (R103), `4 * IN_LEN` when decoding (R106). -/
def outputLength (dir : Direction) (inLen : Nat) : Nat :=
  match dir with
  | .enc => (inLen + 3) / 4
  | .dec => 4 * inLen

end Sys2Proof.Machine
end

