-- ==== Sys2Proof/Machine/Ops.lean ====
section
/-! DEFINITION. The named operations over memory, channels and registers; raising a command error; the block's reset. -/

namespace Sys2Proof.Machine

/-- What a byte of buffer memory that nothing has written reads as (DESIGN CHOICE, unsafe, log entry 2: the content at
power-on is the platform's, 70_reset_and_hazards.md R141; every program of 95_test_vectors.md starts from zero). -/
def Memory.fill : Byte := 0

/-- One byte of buffer memory. Every address can be read (20_memory.md R50). -/
def Memory.read (m : Memory) (a : Nat) : Byte :=
  match m with
  | [] => Memory.fill
  | (k, v) :: rest => if a = k then v else Memory.read rest a

/-- A list with the byte at `a` set in front, unless that is what an unlisted byte reads as. -/
def Memory.cons (a : Nat) (v : Byte) (m : Memory) : Memory :=
  if v = Memory.fill then m else (a, v) :: m

/-- Write one byte, keeping the canonical form: only that byte changes (20_memory.md R48). -/
def Memory.write (m : Memory) (a : Nat) (v : Byte) : Memory :=
  match m with
  | [] => Memory.cons a v []
  | (k, w) :: rest =>
    if a < k then Memory.cons a v ((k, w) :: rest)
    else if a = k then Memory.cons a v rest
    else (k, w) :: Memory.write rest a v

/-- Addresses from `lo` on, strictly rising, inside the 2^32-byte space (R40), no entry equal to the fill byte. -/
def Memory.wfFrom (lo : Nat) (m : Memory) : Bool :=
  match m with
  | [] => true
  | (k, v) :: rest => decide (lo ≤ k) && decide (k < 2 ^ 32) && !(v == Memory.fill) && Memory.wfFrom (k + 1) rest

/-- The canonical form of buffer memory. -/
def Memory.wf (m : Memory) : Bool := Memory.wfFrom 0 m

/-- Buffer memory replaced. -/
def State.setMem (s : State) (m : Memory) : State := { s with mem := m }

/-- RESULT written (10_state.md R30). -/
def State.setResult (s : State) (v : Word) : State := { s with result := v }

/-- OUT_LEN written (10_state.md R28). -/
def State.setOutLen (s : State) (v : Word) : State := { s with outLen := v }

/-- What a host read returned. -/
def State.setReadData (s : State) (v : Word) : State := { s with readData := v }

/-- `MemRead(addr, 1)` by the block (00_scope.md R11); an address of MEM_FAULT faults the command (D15). -/
def busRead (s : State) (a : Nat) : Except Fault Byte :=
  if a ∈ s.memFault then .error .bufferAccess else .ok (s.mem.read a)

/-- `MemWrite(addr, 1, v)` by the block (R11); an address of MEM_FAULT faults the command (D15). -/
def busWrite (s : State) (a : Nat) (v : Byte) : Except Fault State :=
  if a ∈ s.memFault then .error .bufferAccess else .ok (s.setMem (s.mem.write a v))

/-- `CH[c]` (00_scope.md R10). -/
def State.chan (s : State) (c : Channel) : ChannelRegs :=
  match c with
  | .ch0 => s.ch0
  | .ch1 => s.ch1

/-- `CH[c] <- r` (R10). -/
def State.setChan (s : State) (c : Channel) (r : ChannelRegs) : State :=
  match c with
  | .ch0 => { s with ch0 := r }
  | .ch1 => { s with ch1 := r }

/-- Both channels to (0, 0), the end of StreamPrologue (41_stream_codec.md R100). -/
def State.freshChannels (s : State) : State :=
  { s with ch0 := ChannelRegs.initial, ch1 := ChannelRegs.initial }

/-- `raise CmdError(code)`: the block's only exception. It writes STATUS.ERR and STATUS.STICKY and nothing else; it saves
no state, changes no mode and transfers control nowhere, and there is no return from it: the block accepts the next command
at once (60_exceptions.md R121, R129, R130; 00_scope.md R12). -/
def State.raise (s : State) (e : CmdError) : State :=
  { s with err := e.code, sticky := true }

/-- The end of every successful command: STATUS.ERR <- 0, STICKY unchanged (60_exceptions.md R124). -/
def State.succeed (s : State) : State := { s with err := 0 }

/-- The end of a command's body: the success status, or the fault that stopped it. -/
def finish (r : Except Fault State) : Host.Outcome State Fault Refusal :=
  match r with
  | .ok s => .next s.succeed
  | .error f => .fault f

/-- The offset of a register in the window (10_state.md R20). -/
def regOffset : Reg → BitVec 6
  | .cmd => 0x00
  | .status => 0x04
  | .cfg => 0x08
  | .inBase => 0x0C
  | .inLen => 0x10
  | .outBase => 0x14
  | .outCap => 0x18
  | .outLen => 0x1C
  | .result => 0x20
  | .ch0State => 0x24
  | .ch1State => 0x28

/-- The registers, in the order of their offsets (R20). -/
def allRegs : List Reg :=
  [.cmd, .status, .cfg, .inBase, .inLen, .outBase, .outCap, .outLen, .result, .ch0State, .ch1State]

/-- The register at an offset; 0x2C to 0x3C are unmapped (R20, R31). -/
def regAt (off : BitVec 6) : Option Reg := allRegs.find? fun r => regOffset r == off

/-- The view of a channel: PRED in 15:0, SI in 21:16, 31:22 zero (R29). -/
def channelView (r : ChannelRegs) : Word := 0#10 ++ r.si ++ r.pred

/-- What a host read of a register returns (R20 to R30); a read has no side effect (R31). -/
def State.regValue (s : State) (r : Reg) : Word :=
  match r with
  | .cmd => 0
  | .status => statusWord s.err s.sticky
  | .cfg => s.channels.setWidth 32
  | .inBase => s.inBase
  | .inLen => s.inLen
  | .outBase => s.outBase
  | .outCap => s.outCap
  | .outLen => s.outLen
  | .result => s.result
  | .ch0State => channelView s.ch0
  | .ch1State => channelView s.ch1

/-- The effect of a host write on the registers that hold what is written: STATUS clears STICKY, CFG takes two bits, the
buffer registers take all; writes to read-only registers are ignored (R22 to R31). CMD holds no state (R21). -/
def State.setReg (s : State) (r : Reg) (v : Word) : State :=
  match r with
  | .cmd => s
  | .status => { s with sticky := stickyAfterWrite v s.sticky }
  | .cfg => { s with channels := v.extractLsb' 0 2 }
  | .inBase => { s with inBase := v }
  | .inLen => { s with inLen := v }
  | .outBase => { s with outBase := v }
  | .outCap => { s with outCap := v }
  | .outLen => s
  | .result => s
  | .ch0State => s
  | .ch1State => s

/-- Reset asserted by the platform (70_reset_and_hazards.md R140): the values of R141 in every register and channel; the
tables and buffer memory are not affected. The host's own accesses go on after it. -/
def State.blockReset (s : State) : State :=
  { State.resetWith s.steps s.memFault with mem := s.mem, pending := s.pending, readData := s.readData }

end Sys2Proof.Machine
end

