-- ==== Sys2Proof/Machine/ChannelCodec.lean ====
section
/-! DEFINITION. The ChannelCodec: the dequantizer and predictor, the quantizer, the single-channel commands, and a
channel's run over a list of samples or codes. -/

namespace Sys2Proof.Machine

/-- `DecodeUpdate` for a known step: PRED moves by the code's delta and SI by its index delta, both clamped
(40_channel_codec.md R82). -/
def updateWith (step : Nat) (r : ChannelRegs) (code : BitVec 4) : ChannelRegs where
  si := BitVec.ofInt 6 (clamp (r.si.toNat + indexDelta code) 0 48)
  pred := BitVec.ofInt 16 (clamp (r.pred.toInt + codeDelta step code) (-32768) 32767)

/-- `DecodeUpdate` on one channel's registers: the step is that of SI before the update (R80, R82). The returned sample is
the new PRED. -/
def decodeUpdate (t : StepTable) (r : ChannelRegs) (code : BitVec 4) : Except Fault ChannelRegs := do
  let step ← lookupStep t r.si
  pure (updateWith step r code)

/-- `sign_bit | quantized`: bit 3 set for a negative raw delta, the mantissa in bits 2:0 (R83). -/
def signedCode (negative : Bool) (quantized : Nat) : BitVec 4 :=
  (if negative then 0x8 else 0x0) ||| BitVec.ofNat 4 quantized

/-- `EncodeQuantize` for a known step: the sign of `raw_delta = s - PRED` and `min(7, (magnitude << 2) div step)` (R83). -/
def quantizeWith (step : Nat) (r : ChannelRegs) (sample : Int) : BitVec 4 :=
  signedCode (decide (sample - r.pred.toInt < 0)) (min 7 ((sample - r.pred.toInt).natAbs <<< 2 / step))

/-- `EncodeQuantize` on one channel's registers (R83). -/
def encodeQuantize (t : StepTable) (r : ChannelRegs) (sample : Int) : Except Fault (BitVec 4) := do
  let step ← lookupStep t r.si
  pure (quantizeWith step r sample)

/-- One encode step of a channel: the code, then `DecodeUpdate` with it (R87). -/
def encodeStep (t : StepTable) (r : ChannelRegs) (sample : Int) : Except Fault (BitVec 4 × ChannelRegs) := do
  let code ← encodeQuantize t r sample
  let r' ← decodeUpdate t r code
  pure (code, r')

/-- CHRESET: CH[c] <- (0, 0) (R85). -/
def execChreset (ch : Channel) (s : State) : Host.Outcome State Fault Refusal :=
  .next (s.setChan ch ChannelRegs.initial).succeed

/-- DECSTEP: `RESULT <- zext_32(bits_16(p))`, `p` the returned sample (R86). -/
def execDecstep (ch : Channel) (code : BitVec 4) (s : State) : Host.Outcome State Fault Refusal :=
  finish do
    let r ← decodeUpdate s.steps (s.chan ch) code
    pure ((s.setChan ch r).setResult (r.pred.setWidth 32))

/-- ENCSTEP: `RESULT <- zext_32(code)` (R87). -/
def execEncstep (ch : Channel) (sample : Int) (s : State) : Host.Outcome State Fault Refusal :=
  finish do
    let (code, r) ← encodeStep s.steps (s.chan ch) sample
    pure ((s.setChan ch r).setResult (code.setWidth 32))

/-- A channel encoding samples one after another: the codes, and its registers after each of them (R88). -/
def encodeRun (t : StepTable) (r : ChannelRegs) : List Int → Except Fault (List (BitVec 4 × ChannelRegs))
  | [] => pure []
  | s :: rest => do
    let (code, r') ← encodeStep t r s
    let tail ← encodeRun t r' rest
    pure ((code, r') :: tail)

/-- A channel decoding codes one after another: its registers after each of them; the decoded samples are their PREDs
(R88). -/
def decodeRun (t : StepTable) (r : ChannelRegs) : List (BitVec 4) → Except Fault (List ChannelRegs)
  | [] => pure []
  | code :: rest => do
    let r' ← decodeUpdate t r code
    let tail ← decodeRun t r' rest
    pure (r' :: tail)

end Sys2Proof.Machine
end

