-- ==== Sys2Proof/Machine/StreamCodec.lean ====
section
/-! DEFINITION. The StreamCodec: the prologue's checks, the channel interleaver, and the stream commands ENCODE and
DECODE. -/

namespace Sys2Proof.Machine

/-- A range of `len` bytes from `base` that runs past address 0xFFFFFFFF, in exact integers (20_memory.md R43). -/
def pastEnd (base : Word) (len : Nat) : Bool := decide (base.toNat + len > 2 ^ 32)

/-- Two ranges, both non-empty, that share an address (20_memory.md R49, 41_stream_codec.md R100). -/
def rangesMeet (inBase : Word) (inLen : Nat) (outBase : Word) (outLen : Nat) : Bool :=
  decide (inLen > 0) && decide (outLen > 0) && decide (inBase.toNat < outBase.toNat + outLen)
    && decide (outBase.toNat < inBase.toNat + inLen)

/-- The checks of `StreamPrologue(dir)` after that of the channel count, in the spec's order, the first that applies raising
its error; on success the layout and the exact output length `L = len` (41_stream_codec.md R100). -/
def rangeCheck (dir : Direction) (s : State) (lay : Layout) (len : Nat) : Except CmdError (Layout × Nat) :=
  if dir = .enc ∧ s.inLen.toNat % 2 = 1 then .error .len
  else if len > s.outCap.toNat then .error .cap
  else if pastEnd s.inBase s.inLen.toNat || pastEnd s.outBase len then .error .range
  else if rangesMeet s.inBase s.inLen.toNat s.outBase len then .error .overlap
  else .ok (lay, len)

/-- The checks of `StreamPrologue(dir)`: the channel count first, then the others (R100). -/
def streamCheck (dir : Direction) (s : State) : Except CmdError (Layout × Nat) :=
  match layoutOf s.channels with
  | none => .error .chan
  | some lay => rangeCheck dir s lay (outputLength dir s.inLen.toNat)

/-- The address of byte `b` (0 low, 1 high) of PCM sample `i` of a buffer (20_memory.md R44, R45). -/
def sampleAddr (base : Word) (i b : Nat) : Nat := base.toNat + 2 * i + b

/-- The sample number of nibble `h` of ADPCM byte `j`: `i = 2*j + h` (R101, R102). -/
def sampleIndex (j : Nat) (h : Nibble) : Nat := 2 * j + h.index

/-- PCM sample `i` of the input buffer, low byte first (20_memory.md R44). -/
def readSample (s : State) (i : Nat) : Except Fault Int := do
  let lo ← busRead s (sampleAddr s.inBase i 0)
  let hi ← busRead s (sampleAddr s.inBase i 1)
  pure (sampleOfBytes lo hi)

/-- Output sample `i`, low byte first (20_memory.md R45). -/
def writeSample (s : State) (i : Nat) (p : BitVec 16) : Except Fault State := do
  let s' ← busWrite s (sampleAddr s.outBase i 0) (sampleLow p)
  busWrite s' (sampleAddr s'.outBase i 1) (sampleHigh p)

/-- One nibble of ENCODE: encode its sample on its channel into the accumulator; a sample past the input leaves both
untouched (R104, R105). `samples` is `S`, the number of samples in the input. -/
def encodeNibble (lay : Layout) (samples j : Nat) (h : Nibble) (acc : Byte) (s : State) :
    Except Fault (Byte × State) :=
  if sampleIndex j h < samples then do
    let sample ← readSample s (sampleIndex j h)
    let (code, r) ← encodeStep s.steps (s.chan (lay.channel h)) sample
    pure (acc ||| h.place code, s.setChan (lay.channel h) r)
  else pure (acc, s)

/-- Output byte `j` of ENCODE, from a zero byte, high nibble first (R104). -/
def encodeByte (lay : Layout) (samples j : Nat) (s : State) : Except Fault State := do
  let (acc, s1) ← encodeNibble lay samples j .high 0 s
  let (acc', s2) ← encodeNibble lay samples j .low acc s1
  busWrite s2 (s2.outBase.toNat + j) acc'

/-- `count` output bytes of ENCODE from byte `j` on (R104). -/
def encodeBytes (lay : Layout) (samples j : Nat) (s : State) : Nat → Except Fault State
  | 0 => pure s
  | count + 1 => do
    let s' ← encodeByte lay samples j s
    encodeBytes lay samples (j + 1) s' count

/-- One nibble of DECODE: decode its code on its channel and write the sample (R107). -/
def decodeNibble (lay : Layout) (j : Nat) (h : Nibble) (b : Byte) (s : State) : Except Fault State := do
  let r ← decodeUpdate s.steps (s.chan (lay.channel h)) (h.extract b)
  writeSample (s.setChan (lay.channel h) r) (sampleIndex j h) r.pred

/-- Input byte `j` of DECODE: one read, then both nibbles, high first (R107). -/
def decodeByte (lay : Layout) (j : Nat) (s : State) : Except Fault State := do
  let b ← busRead s (s.inBase.toNat + j)
  let s' ← decodeNibble lay j .high b s
  decodeNibble lay j .low b s'

/-- `count` input bytes of DECODE from byte `j` on (R107). -/
def decodeBytes (lay : Layout) (j : Nat) (s : State) : Nat → Except Fault State
  | 0 => pure s
  | count + 1 => do
    let s' ← decodeByte lay j s
    decodeBytes lay (j + 1) s' count

/-- ENCODE (R104): the prologue's error, or the encoded buffer and `OUT_LEN <- L`. -/
def execEncode (s : State) : Host.Outcome State Fault Refusal :=
  match streamCheck .enc s with
  | .error e => .next (s.raise e)
  | .ok (lay, outLen) =>
    finish do
      let s' ← encodeBytes lay (s.inLen.toNat / 2) 0 s.freshChannels outLen
      pure (s'.setOutLen (BitVec.ofNat 32 outLen))

/-- DECODE (R107): the prologue's error, or the decoded buffer and `OUT_LEN <- L`. -/
def execDecode (s : State) : Host.Outcome State Fault Refusal :=
  match streamCheck .dec s with
  | .error e => .next (s.raise e)
  | .ok (lay, outLen) =>
    finish do
      let s' ← decodeBytes lay 0 s.freshChannels s.inLen.toNat
      pure (s'.setOutLen (BitVec.ofNat 32 outLen))

end Sys2Proof.Machine
end

