-- ==== Sys2Proof/Machine/System.lean ====
section
/-! DEFINITION. The system-like command NOP. -/

namespace Sys2Proof.Machine

/-- NOP: STATUS.ERR <- 0 and nothing else (30_encoding.md R70). -/
def execNop (s : State) : Host.Outcome State Fault Refusal := .next s.succeed

end Sys2Proof.Machine
end

