-- ==== Sys2Proof/Machine/Dispatch.lean ====
section
/-! DEFINITION. The meaning of each command, one arm per constructor. -/

namespace Sys2Proof.Machine

def exec (i : Instr) (s : State) : Host.Outcome State Fault Refusal :=
  match i with
  | .nop => Sys2Proof.Machine.execNop s
  | .chreset ch => Sys2Proof.Machine.execChreset ch s
  | .decstep ch code => Sys2Proof.Machine.execDecstep ch code s
  | .encstep ch sample => Sys2Proof.Machine.execEncstep ch sample s
  | .encode => Sys2Proof.Machine.execEncode s
  | .decode => Sys2Proof.Machine.execDecode s

end Sys2Proof.Machine
end

