-- ==== Sys2Proof/Machine/HostBus.lean ====
section
/-! DEFINITION. The register window and the host's accesses: what each access does, and taking the next one. -/

namespace Sys2Proof.Machine

/-- A word written to CMD: a command is executed, an illegal word raises ERR_ILLEGAL and changes nothing else
(10_state.md R21, 30_encoding.md R68, R69). -/
def runWord (w : Word) (s : State) : Host.Outcome State Fault Refusal :=
  match decode w with
  | .ok i => exec i s
  | .error _ => .next (s.raise .illegal)

/-- The register window takes aligned 32-bit accesses only (10_state.md R31). -/
def accessAllowed (off : BitVec 6) (bytes : Nat) : Bool := bytes == 4 && off.toNat % 4 == 0

/-- A host read at an offset: an unmapped one returns 0 (R31). -/
def readOffset (off : BitVec 6) (s : State) : Word :=
  match regAt off with
  | some r => s.regValue r
  | none => 0

/-- A host write at an offset: CMD runs the command; a write at an unmapped offset is ignored (R21, R31). -/
def writeOffset (off : BitVec 6) (v : Word) (s : State) : Host.Outcome State Fault Refusal :=
  match regAt off with
  | some .cmd => runWord v s
  | some r => .next (s.setReg r v)
  | none => .next s

/-- One access of the host, or reset. -/
def performAccess (a : HostAccess) (s : State) : Host.Outcome State Fault Refusal :=
  match a with
  | .regRead off bytes =>
    if accessAllowed off bytes then .next (s.setReadData (readOffset off s)) else .refused .registerAccess
  | .regWrite off bytes v => if accessAllowed off bytes then writeOffset off v s else .refused .registerAccess
  | .memRead addr => .next (s.setReadData ((s.mem.read addr.toNat).setWidth 32))
  | .memWrite addr v => .next (s.setMem (s.mem.write addr.toNat v))
  | .reset => .next s.blockReset

/-- Take the host's next access; with none pending the block is idle and holds all its state (60_exceptions.md R136,
70_reset_and_hazards.md R142). -/
def nextAccess (s : State) : Host.Outcome State Fault Refusal :=
  match s.pending with
  | [] => .next s
  | a :: rest => performAccess a { s with pending := rest }

/-- The host's write of a command word to CMD. -/
def commandAccess (w : Word) : HostAccess := .regWrite (regOffset .cmd) 4 w

/-- The platform address of an offset of the window: `REG_BASE + offset` (30_encoding.md R72). -/
def windowAddress (off : BitVec 6) : Nat := Config.regBase + off.toNat

/-- The offset of a platform address in the window `REG_BASE .. REG_BASE + 0x3F`, if it lies there (10_state.md R20). -/
def windowOffset (addr : Nat) : Option (BitVec 6) :=
  if Config.regBase ≤ addr ∧ addr < Config.regBase + 0x40 then some (BitVec.ofNat 6 (addr - Config.regBase)) else none

end Sys2Proof.Machine
end

