-- ==== Sys2Proof/Machine/Step.lean ====
section
/-! DEFINITION. One step of the machine, and placing a command where the next step takes it. -/

namespace Sys2Proof.Machine

/-- One step: the host's next access (70_reset_and_hazards.md R146: one transition per CMD write). -/
def step (s : State) : Host.Outcome State Fault Refusal := nextAccess s

/-- `s` with a host write of the word to CMD as the very next access (log entry 6). -/
def State.withFetchWord (s : State) (nbits w : Nat) : State :=
  { s with pending := commandAccess (tableWord nbits w) :: s.pending }

end Sys2Proof.Machine
end

