-- ==== Sys2Proof/Machine/HostProgram.lean ====
section
/-! DEFINITION. The host's side: program lines and their expansion to accesses, and the container header. -/

namespace Sys2Proof.Machine

/-- `wr <REG>, <value>`: an aligned 32-bit host write (30_encoding.md R72). -/
def wrAccess (r : Reg) (v : Word) : HostAccess := .regWrite (regOffset r) 4 v

/-- The accesses of a program line: R72 for lines, R73 for pseudo-instructions. A command mnemonic stands for `wr CMD` of its
word. -/
def lineAccesses : AsmLine → List HostAccess
  | .wr r v => [wrAccess r v]
  | .rd r => [.regRead (regOffset r) 4]
  | .cmd i => [wrAccess .cmd (encode i)]
  | .mono => [wrAccess .cfg 1]
  | .stereo => [wrAccess .cfg 2]
  | .setin base len => [wrAccess .inBase base, wrAccess .inLen len]
  | .setout base cap => [wrAccess .outBase base, wrAccess .outCap cap]
  | .resetall => [wrAccess .cmd (encode (.chreset .ch0)), wrAccess .cmd (encode (.chreset .ch1))]
  | .clrsticky => [wrAccess .status 0x10]

/-- The accesses of a program, in order (R72). -/
def assemble (program : List AsmLine) : List HostAccess := program.flatMap lineAccesses

/-- A program from outside the machine, to be run after what is already pending (log entry 6). -/
def State.load (s : State) (program : List AsmLine) : State := { s with pending := s.pending ++ assemble program }

/-- The magic bytes `"ADP\x02"` (20_memory.md R57). -/
def headerMagic : List Byte := [0x41, 0x44, 0x50, 0x02]

/-- The big-endian size field `f[4..7]` of a file (R57). -/
def headerSize (f : List Byte) : Nat :=
  (f.getD 4 0).toNat * 2 ^ 24 + (f.getD 5 0).toNat * 2 ^ 16 + (f.getD 6 0).toNat * 2 ^ 8 + (f.getD 7 0).toNat

/-- Header detection by the host (R57): at least 8 bytes, the magic, and a size field equal to `F - 16`. -/
def headerPresent (f : List Byte) : Bool :=
  decide (8 ≤ f.length) && f.take 4 == headerMagic && decide ((headerSize f : Int) = f.length - 16)

/-- How many bytes of the file precede the codec's input: 16 with a header, else 0; a mismatch is never an error
(R57, R58). -/
def headerLength (f : List Byte) : Nat := if headerPresent f then 16 else 0

/-- The codec's input: `f[16..F-1]` with a header, else the whole file (R57). -/
def codecInput (f : List Byte) : List Byte := f.drop (headerLength f)

/-- The host's programming of the codec's input for a file that lies in buffer memory from `fileBase` on (R57). DESIGN
CHOICE (log entry 9), where the value does not fit the 32-bit register and the spec is silent: IN_BASE is the address modulo
2^32, and IN_LEN is the length modulo 2^32, so an input of exactly 2^32 bytes gives IN_LEN 0. -/
def inputLine (fileBase : Word) (f : List Byte) : AsmLine :=
  .setin (fileBase + BitVec.ofNat 32 (headerLength f)) (BitVec.ofNat 32 (codecInput f).length)

/-- The host's programming of a stream command (70_reset_and_hazards.md R143). -/
def streamProgram (lay : Layout) (dir : Direction) (fileBase : Word) (f : List Byte) (outBase outCap : Word) :
    List AsmLine :=
  [match lay with
    | .mono => .mono
    | .stereo => .stereo,
   inputLine fileBase f, .setout outBase outCap,
   .cmd (match dir with
    | .enc => .encode
    | .dec => .decode)]

/-- The host's programming of a channel for single-step decoding of a new stream: CHRESET first, then the codes in order
(70_reset_and_hazards.md R144, R147). -/
def singleStepProgram (ch : Channel) (codes : List (BitVec 4)) : List AsmLine :=
  .cmd (.chreset ch) :: codes.map fun code => .cmd (.decstep ch code)

/-- A host store at a platform address, as an access of the register window where the address lies in it
(10_state.md R20, 92_eei_decisions.md D27). -/
def storeAccess (addr bytes : Nat) (v : Word) : Option HostAccess :=
  (windowOffset addr).map fun off => .regWrite off bytes v

/-- A host load at a platform address, likewise. -/
def loadAccess (addr bytes : Nat) : Option HostAccess :=
  (windowOffset addr).map fun off => .regRead off bytes

end Sys2Proof.Machine
end

