-- ==== Sys2Proof/Machine/StreamView.lean ====
section
/-! DEFINITION. A stream command's buffers as whole lists: the samples of a PCM buffer, the codes of an ADPCM buffer, and
the share of each channel. The step does not use these; the statements about ENCODE and DECODE are written in them. -/

namespace Sys2Proof.Machine

/-- PCM sample `i` of the buffer at `base` (20_memory.md R44). -/
def bufferSample (m : Memory) (base : Word) (i : Nat) : Int :=
  sampleOfBytes (m.read (sampleAddr base i 0)) (m.read (sampleAddr base i 1))

/-- `count` PCM samples of the buffer at `base`, from sample `i` on. -/
def bufferSamples (m : Memory) (base : Word) (i : Nat) : Nat → List Int
  | 0 => []
  | count + 1 => bufferSample m base i :: bufferSamples m base (i + 1) count

/-- The two codes of each of `count` ADPCM bytes of the buffer at `base`, from byte `j` on, high nibble first
(30_encoding.md R63). -/
def bufferCodes (m : Memory) (base : Word) (j : Nat) : Nat → List (BitVec 4)
  | 0 => []
  | count + 1 =>
    let b := m.read (base.toNat + j)
    Nibble.high.extract b :: Nibble.low.extract b :: bufferCodes m base (j + 1) count

/-- "Every other slot" of a list, from its first. -/
def everyOther {α : Type} : List α → List α
  | [] => []
  | [a] => [a]
  | a :: _ :: rest => a :: everyOther rest

/-- The share of a channel in a stream: in mono all of it is CH0's (41_stream_codec.md R101); in stereo CH0 has the even
slots and CH1 the odd ones (R102). -/
def channelItems {α : Type} (lay : Layout) (c : Channel) (l : List α) : List α :=
  match lay, c with
  | .mono, .ch0 => l
  | .mono, .ch1 => []
  | .stereo, .ch0 => everyOther l
  | .stereo, .ch1 => everyOther l.tail

/-- ADPCM byte `j` of a list of codes: code `2j` in the high nibble, code `2j + 1` in the low one, 0 where there is no code
(30_encoding.md R63 to R65, 41_stream_codec.md R105). -/
def packedByte (codes : List (BitVec 4)) (j : Nat) : Byte := codes.getD (2 * j) 0 ++ codes.getD (2 * j + 1) 0

/-- A channel's registers after a run that started at (0, 0): those after its last step, or (0, 0) if it took none
(R108). -/
def lastRegs (run : List ChannelRegs) : ChannelRegs := run.getLastD ChannelRegs.initial

/-- Nothing stands in the way of a stream command: the channel count is that of the layout, the length is even when
encoding, the output fits, both ranges end inside the space, and they share no address (41_stream_codec.md R100,
70_reset_and_hazards.md R143). `len` is the exact output length (R103, R106). -/
structure StreamReady (dir : Direction) (s : State) (lay : Layout) (len : Nat) : Prop where
  channels : s.channels = (match lay with | .mono => 1 | .stereo => 2)
  encEven : dir = .enc → s.inLen.toNat % 2 = 0
  encLength : dir = .enc → len = (s.inLen.toNat + 3) / 4
  decLength : dir = .dec → len = 4 * s.inLen.toNat
  fits : len ≤ s.outCap.toNat
  inEnd : s.inBase.toNat + s.inLen.toNat ≤ 2 ^ 32
  outEnd : s.outBase.toNat + len ≤ 2 ^ 32
  disjoint : s.inLen.toNat = 0 ∨ s.inBase.toNat + s.inLen.toNat ≤ s.outBase.toNat ∨
    s.outBase.toNat + len ≤ s.inBase.toNat

end Sys2Proof.Machine
end

