-- ==== Sys2Proof/Safety.lean ====
section
/-! DEFINITION. What a safe state is, in the terms the statements use. -/

namespace Sys2Proof.Machine

/-- The step index lies in [0, 48] (10_state.md R14). PRED lies in [-32768, 32767] by its width. -/
def ChannelRegs.inRange (r : ChannelRegs) : Prop := r.si.toNat ≤ 48

/-- The invariant of the block: memory is canonical, both step indices are in range (R14), ERR is one of the codes 0 to 6
(60_exceptions.md R122), RESULT has bits 31:16 zero (10_state.md R30). -/
structure State.Inv (s : State) : Prop where
  mem : s.mem.wf = true
  ch0 : s.ch0.inRange
  ch1 : s.ch1.inRange
  err : s.err.toNat ≤ 6
  result : s.result.toNat < 2 ^ 16

end Sys2Proof.Machine
end

