-- ==== Sys2Proof/Certificates/Slice0/Obligations.lean ====
section
/-! DEFINITION. The statements for the provers. -/

open Sys2Proof Sys2Proof.Machine

/-! ### Encoding -/

/-- 30_encoding.md R66, R67, R72: no bit of an operand is dropped. -/
def Obligations.DecodeOfEncodeIsIdentity : Prop :=
  ∀ i : Instr, wellFormed i = true → decode (encode i) = .ok i

/-- R67, R68, R71: each legal word has one meaning and one encoding. -/
def Obligations.DecodedWordEncodesBack : Prop :=
  ∀ (w : Word) (i : Instr), decode w = .ok i → wellFormed i = true ∧ encode i = w

/-- R74: the spec's own example words, legal and illegal. -/
def Obligations.ExampleWordsDecodeAsListed : Prop :=
  (∀ p ∈ [(Instr.decstep .ch0 7, (0x20000007 : Word)), (.decstep .ch1 15, 0x2100000F), (.encstep .ch0 (-1), 0x3000FFFF),
      (.encstep .ch1 1000, 0x310003E8), (.chreset .ch1, 0x11000000), (.encode, 0x40000000), (.decode, 0x50000000)],
    encode p.1 = p.2 ∧ decode p.2 = .ok p.1) ∧
  ∀ w ∈ [(0x20000017 : Word), 0x40000001, 0x41000000, 0x60000000], ∃ e, decode w = .error e

/-- R69: a word with OP in 0x6 to 0xF raises ERR_ILLEGAL whatever its other bits, and changes nothing else. -/
def Obligations.ReservedOpcodesAreIllegal : Prop :=
  ∀ (s : State) (w : Word) (rest : List HostAccess), 6 ≤ (w >>> 28).toNat →
    s.pending = .regWrite 0x00 4 w :: rest →
    step s = .next { s with pending := rest, err := 1, sticky := true }

/-- R67, R68: a word with OP in 0x0 to 0x5 raises ERR_ILLEGAL, and changes nothing else, when one of the bits the opcode map
fixes at 0 is set (27:0 for NOP, ENCODE, DECODE; 27:25 and 23:0, 23:4 or 23:16 for CHRESET, DECSTEP, ENCSTEP); with all of
them 0 it is a command. -/
def Obligations.ReservedBitsAreIllegal : Prop :=
  ∀ (s : State) (w : Word) (rest : List HostAccess) (op lowest : Nat),
    (op, lowest) ∈ [(1, 0), (2, 4), (3, 16)] ∨ op ∈ [0, 4, 5] ∧ lowest = 0 → (w >>> 28).toNat = op →
    s.pending = .regWrite 0x00 4 w :: rest →
    ((∃ n, lowest ≤ n ∧ n ≤ 27 ∧ (n = 24 → op ∈ [0, 4, 5]) ∧ w.getLsbD n = true) →
      step s = .next { s with pending := rest, err := 1, sticky := true }) ∧
    ((∀ n, lowest ≤ n → n ≤ 27 → (n = 24 → op ∈ [0, 4, 5]) → w.getLsbD n = false) → ∃ i, decode w = .ok i)

/-! ### The step -/

/-- 10_state.md R21: a write of a command's word to CMD executes it in one step, before the host's next access; a read of
CMD returns 0 and has no effect. -/
def Obligations.CmdWriteExecutesTheCommand : Prop :=
  ∀ (s : State) (rest : List HostAccess),
    (∀ w i, s.pending = .regWrite 0x00 4 w :: rest → decode w = .ok i → step s = exec i { s with pending := rest }) ∧
    (s.pending = .regRead 0x00 4 :: rest → step s = .next { s with pending := rest, readData := 0 })

/-- The word the host places (log entry 6, the model's own convention) is the next command run. -/
def Obligations.PlacedWordRunsNext : Prop :=
  ∀ (s : State) (w : Nat) (i : Instr), decodeTableWord 32 w = some i → step (s.withFetchWord 32 w) = exec i s

/-- 60_exceptions.md R136: with no access pending the block is idle and holds all its state. -/
def Obligations.IdleBlockHoldsItsState : Prop :=
  ∀ s : State, s.pending = [] → step s = .next s

/-- The invariant of the block (10_state.md R14, R30; 60_exceptions.md R122) is kept by every step, from every state that
meets it, also under a MEM_FAULT that is not the default. -/
def Obligations.StepKeepsInvariant : Prop :=
  ∀ s t : State, s.Inv → step s = .next t → t.Inv

/-- The reset state meets the invariant. -/
def Obligations.ResetMeetsInvariant : Prop := State.reset.Inv

/-- 60_exceptions.md R126, 20_memory.md R50, 92_eei_decisions.md D15: no state that meets the invariant faults, under the
spec's default MEM_FAULT, none (a field of State by the model's choice, log entry 3). -/
def Obligations.NoFaultUnderInvariant : Prop :=
  ∀ (s : State) (f : Fault), s.Inv → s.memFault = [] → step s ≠ .fault f

/-- 10_state.md R31: exactly the register accesses that are not aligned 32-bit ones are refused. -/
def Obligations.OnlyMalformedRegisterAccessesAreRefused : Prop :=
  ∀ (s : State) (x : Refusal), step s = .refused x ↔
    x = .registerAccess ∧ ∃ (off : BitVec 6) (bytes : Nat) (rest : List HostAccess), (bytes ≠ 4 ∨ off.toNat % 4 ≠ 0) ∧
      (s.pending = .regRead off bytes :: rest ∨ ∃ v, s.pending = .regWrite off bytes v :: rest)

/-- 10_state.md R19: no command, no host access and no reset writes the step table. Nor does any step write MEM_FAULT, a
parameter of the platform (92_eei_decisions.md D15): that it is a field of State that no step changes is the model's choice
(log entry 3, DESIGN CHOICE). -/
def Obligations.TablesAreNeverMutated : Prop :=
  ∀ s t : State, step s = .next t → t.steps = s.steps ∧ t.memFault = s.memFault

/-- 10_state.md R16, R22, R28, R30: channels, RESULT, OUT_LEN and ERR change only by a command or by reset. -/
def Obligations.OnlyCommandsAndResetWriteBlockState : Prop :=
  ∀ s t : State, step s = .next t →
    t.ch0 ≠ s.ch0 ∨ t.ch1 ≠ s.ch1 ∨ t.result ≠ s.result ∨ t.outLen ≠ s.outLen ∨ t.err ≠ s.err →
    ∃ rest, s.pending = .reset :: rest ∨ ∃ w, s.pending = .regWrite 0x00 4 w :: rest

/-! ### Command errors -/

/-- 60_exceptions.md R129: "the state after a failed command is the state before it, except `STATUS`". -/
def Obligations.FailedCommandChangesOnlyStatus : Prop :=
  (∀ (i : Instr) (s t : State), exec i s = .next t → t.err ≠ 0 → t = { s with err := t.err, sticky := true }) ∧
  ∀ (s : State) (w : Word) (e : DecodeError) (rest : List HostAccess), decode w = .error e → s.pending = .regWrite 0x00 4 w :: rest →
    step s = .next { s with pending := rest, err := 1, sticky := true }

/-- 60_exceptions.md R124: a command that does not fail writes ERR <- 0 and leaves STICKY unchanged; only ENCODE and DECODE
can fail after decoding. -/
def Obligations.SuccessfulCommandLeavesSticky : Prop :=
  ∀ (i : Instr) (s t : State), exec i s = .next t →
    (t.err = 0 ∧ t.sticky = s.sticky) ∨
    ((i = .encode ∨ i = .decode) ∧ 2 ≤ t.err.toNat ∧ t.err.toNat ≤ 6 ∧ t.sticky = true)

/-- 60_exceptions.md R123, R122 and 41_stream_codec.md R100: which error a stream command reports, first of the list first;
ERR_ILLEGAL before all of them. -/
def Obligations.StreamErrorsInPriorityOrder : Prop :=
  (∀ (s : State) (w : Word) (e : DecodeError) (rest : List HostAccess), decode w = .error e → s.pending = .regWrite 0x00 4 w :: rest →
    step s = .next { s with pending := rest, err := 1, sticky := true }) ∧
  ∀ (s : State) (i : Instr) (len : Nat),
    i = .encode ∧ len = (s.inLen.toNat + 3) / 4 ∨ i = .decode ∧ len = 4 * s.inLen.toNat →
    if s.channels = 0 ∨ s.channels = 3 then exec i s = .next { s with err := 2, sticky := true }
    else if i = .encode ∧ s.inLen.toNat % 2 = 1 then exec i s = .next { s with err := 3, sticky := true }
    else if len > s.outCap.toNat then exec i s = .next { s with err := 4, sticky := true }
    else if s.inBase.toNat + s.inLen.toNat > 2 ^ 32 ∨ s.outBase.toNat + len > 2 ^ 32 then
      exec i s = .next { s with err := 5, sticky := true }
    else
      ((∃ a, (s.inBase.toNat ≤ a ∧ a < s.inBase.toNat + s.inLen.toNat) ∧
          (s.outBase.toNat ≤ a ∧ a < s.outBase.toNat + len)) → exec i s = .next { s with err := 6, sticky := true }) ∧
      ((∀ a, (s.inBase.toNat ≤ a ∧ a < s.inBase.toNat + s.inLen.toNat) →
          ¬(s.outBase.toNat ≤ a ∧ a < s.outBase.toNat + len)) → ∀ t, exec i s = .next t → t.err = 0)

/-- 60_exceptions.md R125, 10_state.md R22: what makes STICKY 1 and what clears it. -/
def Obligations.StickyRecordsFailures : Prop :=
  ∀ s t : State, step s = .next t →
    (t.sticky = true ↔
      (∃ w rest, s.pending = .regWrite 0x00 4 w :: rest ∧ t.err ≠ 0) ∨
      (s.sticky = true ∧ ∀ rest, s.pending ≠ .reset :: rest ∧
        ∀ w : Word, w.getLsbD 4 = true → s.pending ≠ .regWrite 0x04 4 w :: rest))

/-! ### The single-channel commands -/

/-- 30_encoding.md R70: NOP writes ERR <- 0 and nothing else, and 0x00000000 is its only word. -/
def Obligations.NopWritesErrOnly : Prop :=
  (∀ s : State, exec .nop s = .next { s with err := 0 }) ∧
  encode .nop = 0x00000000 ∧ ∀ w, decode w = .ok .nop → w = 0x00000000

/-- 40_channel_codec.md R85: CHRESET brings its channel to (0, 0), writes ERR <- 0 and nothing else; its encoding, and
ERR_ILLEGAL for its reserved bits. -/
def Obligations.ChresetClearsItsChannel : Prop :=
  (∀ s : State,
    exec (.chreset .ch0) s = .next { s with ch0 := { si := 0, pred := 0 }, err := 0 } ∧
    exec (.chreset .ch1) s = .next { s with ch1 := { si := 0, pred := 0 }, err := 0 }) ∧
  encode (.chreset .ch0) = 0x10000000 ∧ encode (.chreset .ch1) = 0x11000000 ∧
  ∀ (s : State) (w : Word) (n : Nat) (rest : List HostAccess), w >>> 28 = 1 → n ≤ 27 → n ≠ 24 →
    w.getLsbD n = true → s.pending = .regWrite 0x00 4 w :: rest →
    step s = .next { s with pending := rest, err := 1, sticky := true }

/-- 40_channel_codec.md R86 with R82: PRED moves by the code's delta at the step of the old SI and is clamped, SI moves by
the code's index delta and is clamped, RESULT is the new PRED zero-extended, ERR <- 0, nothing else changes; the encoding,
and ERR_ILLEGAL for its reserved bits. -/
def Obligations.DecstepUpdatesItsChannel : Prop :=
  (∀ (s : State) (c : Channel) (code : BitVec 4) (h : (s.chan c).si.toNat ≤ 48),
    let step := s.steps.entries[(s.chan c).si.toNat]'(by omega)
    let magnitude := step / 8 + (if code.getLsbD 0 then step / 4 else 0) + (if code.getLsbD 1 then step / 2 else 0)
      + (if code.getLsbD 2 then step else 0)
    let delta : Int := if code.getLsbD 3 then -magnitude else magnitude
    let indexDelta : Int := if code.toNat % 8 < 4 then -1 else 2 * (code.toNat % 8 : Nat) - 6
    ∃ r : ChannelRegs,
      r.pred.toInt = max (-32768) (min 32767 ((s.chan c).pred.toInt + delta)) ∧
      (r.si.toNat : Int) = max 0 (min 48 ((s.chan c).si.toNat + indexDelta)) ∧
      exec (.decstep c code) s = .next { s.setChan c r with result := r.pred.setWidth 32, err := 0 }) ∧
  (∀ code : BitVec 4, encode (.decstep .ch0 code) = 0x20000000 ||| code.setWidth 32 ∧
    encode (.decstep .ch1 code) = 0x21000000 ||| code.setWidth 32) ∧
  ∀ (s : State) (w : Word) (n : Nat) (rest : List HostAccess), w >>> 28 = 2 → 4 ≤ n → n ≤ 27 → n ≠ 24 →
    w.getLsbD n = true → s.pending = .regWrite 0x00 4 w :: rest →
    step s = .next { s with pending := rest, err := 1, sticky := true }

/-- 40_channel_codec.md R87 with R83: the code's sign is that of the raw delta, its mantissa the floor quotient clamped to
7; the channel then advances by DecodeUpdate with that code, as DECSTEP does; RESULT is the code, ERR <- 0, nothing else
changes; the encoding, and ERR_ILLEGAL for its reserved bits. -/
def Obligations.EncstepQuantizesAndUpdates : Prop :=
  (∀ (s : State) (c : Channel) (sample : Int) (h : (s.chan c).si.toNat ≤ 48),
    let step := s.steps.entries[(s.chan c).si.toNat]'(by omega)
    let rawDelta := sample - (s.chan c).pred.toInt
    ∃ (code : BitVec 4) (r : ChannelRegs),
      code.getLsbD 3 = decide (rawDelta < 0) ∧
      code.toNat % 8 = min 7 (4 * rawDelta.natAbs / step) ∧
      exec (.decstep c code) s = .next { s.setChan c r with result := r.pred.setWidth 32, err := 0 } ∧
      exec (.encstep c sample) s = .next { s.setChan c r with result := code.setWidth 32, err := 0 }) ∧
  (∀ sample : BitVec 16, encode (.encstep .ch0 sample.toInt) = 0x30000000 ||| sample.setWidth 32 ∧
    encode (.encstep .ch1 sample.toInt) = 0x31000000 ||| sample.setWidth 32) ∧
  ∀ (s : State) (w : Word) (n : Nat) (rest : List HostAccess), w >>> 28 = 3 → 16 ≤ n → n ≤ 27 → n ≠ 24 →
    w.getLsbD n = true → s.pending = .regWrite 0x00 4 w :: rest →
    step s = .next { s with pending := rest, err := 1, sticky := true }

/-- 40_channel_codec.md R80: a lookup in range gives a positive step; a state with SI > 48 faults there. -/
def Obligations.StepLookupInRangeOrFault : Prop :=
  (∀ (t : StepTable) (i : Nat) (h : i ≤ 48), 1 ≤ t.entries[i]'(by omega)) ∧
  ∀ (s : State) (c : Channel), 48 < (s.chan c).si.toNat →
    (∀ code, exec (.decstep c code) s = .fault .stepIndexOutOfRange) ∧
    ∀ sample, exec (.encstep c sample) s = .fault .stepIndexOutOfRange

/-- 40_channel_codec.md R88: ENCSTEP leaves the state that DECSTEP of its code leaves; a decoder fed an encoder's codes
passes through the same channel states. -/
def Obligations.DecoderTracksEncoder : Prop :=
  (∀ (s t : State) (c : Channel) (sample : Int), exec (.encstep c sample) s = .next t →
    ∃ (code : BitVec 4) (u : State), t.result = code.setWidth 32 ∧ exec (.decstep c code) s = .next u ∧
      u = { t with result := u.result } ∧ u.result = (t.chan c).pred.setWidth 32) ∧
  ∀ (table : StepTable) (samples : List Int), ∃ run,
    encodeRun table { si := 0, pred := 0 } samples = .ok run ∧ run.length = samples.length ∧
    decodeRun table { si := 0, pred := 0 } (run.map Prod.fst) = .ok (run.map Prod.snd)

/-- 40_channel_codec.md R89, 10_state.md R23: a command on one channel neither reads nor writes the other channel, nor
CFG. -/
def Obligations.SingleChannelCommandsAreIndependent : Prop :=
  ∀ (s t : State) (i : Instr) (r : ChannelRegs) (n : BitVec 2),
    ((i = .chreset .ch0 ∨ (∃ code, i = .decstep .ch0 code) ∨ ∃ sample, i = .encstep .ch0 sample) →
      exec i s = .next t →
      t.ch1 = s.ch1 ∧ exec i { s with ch1 := r, channels := n } = .next { t with ch1 := r, channels := n }) ∧
    ((i = .chreset .ch1 ∨ (∃ code, i = .decstep .ch1 code) ∨ ∃ sample, i = .encstep .ch1 sample) →
      exec i s = .next t →
      t.ch0 = s.ch0 ∧ exec i { s with ch0 := r, channels := n } = .next { t with ch0 := r, channels := n })

/-- 40_channel_codec.md R84: one step moves the prediction by at most twice the step. -/
def Obligations.StepMovesPredictionAtMostTwice : Prop :=
  ∀ (s t : State) (c : Channel) (i : Instr) (h : (s.chan c).si.toNat ≤ 48),
    ((∃ code, i = .decstep c code) ∨ ∃ sample, i = .encstep c sample) → exec i s = .next t →
    ((t.chan c).pred.toInt - (s.chan c).pred.toInt).natAbs ≤ 2 * s.steps.entries[(s.chan c).si.toNat]'(by omega)

/-- 40_channel_codec.md R90 with the clamp of R82: a sample equal to the prediction is coded 0 and still moves the
prediction up by the step over 8. -/
def Obligations.EqualSampleStillMovesPrediction : Prop :=
  ∀ (s : State) (c : Channel) (h : (s.chan c).si.toNat ≤ 48), ∃ t,
    exec (.encstep c (s.chan c).pred.toInt) s = .next t ∧ t.result = 0 ∧
    (t.chan c).pred.toInt =
      min 32767 ((s.chan c).pred.toInt + (s.steps.entries[(s.chan c).si.toNat]'(by omega) / 8 : Nat)) ∧
    (t.chan c).si.toNat = (s.chan c).si.toNat - 1

/-! ### The stream commands -/

/-- 41_stream_codec.md R104 with R101 to R105 and R108: ENCODE on every input it accepts. The output bytes are the packed codes, the
codes of each channel are those of its own run from (0, 0) over its own samples, OUT_LEN is the length law's, and nothing
else changes. -/
def Obligations.EncodePacksEachChannelsRun : Prop :=
  ∀ (s : State) (lay : Layout) (len : Nat), s.mem.wf = true → s.memFault = [] → StreamReady .enc s lay len →
    ∃ (t : State) (codes : List (BitVec 4)),
      exec .encode s = .next t ∧ t.outLen.toNat = len ∧ codes.length = s.inLen.toNat / 2 ∧
      (∀ j < len, t.mem.read (s.outBase.toNat + j) = packedByte codes j) ∧
      (∀ a, ¬(s.outBase.toNat ≤ a ∧ a < s.outBase.toNat + len) → t.mem.read a = s.mem.read a) ∧
      (∀ c, ∃ run, encodeRun s.steps { si := 0, pred := 0 }
          (channelItems lay c (bufferSamples s.mem s.inBase 0 (s.inLen.toNat / 2))) = .ok run ∧
        channelItems lay c codes = run.map Prod.fst ∧ t.chan c = lastRegs (run.map Prod.snd)) ∧
      t = { s with ch0 := t.ch0, ch1 := t.ch1, err := 0, outLen := t.outLen, mem := t.mem }

/-- 41_stream_codec.md R107 with R101, R102, R106, R108: DECODE on every input it accepts. The samples of each channel are those of
its own run from (0, 0) over its own codes, stored little-endian in order, OUT_LEN is 4 * IN_LEN, and nothing else
changes. -/
def Obligations.DecodeUnpacksEachChannelsRun : Prop :=
  ∀ (s : State) (lay : Layout) (len : Nat), s.mem.wf = true → s.memFault = [] → StreamReady .dec s lay len →
    ∃ (t : State) (samples : List (BitVec 16)),
      exec .decode s = .next t ∧ t.outLen.toNat = len ∧ samples.length = 2 * s.inLen.toNat ∧
      bufferSamples t.mem s.outBase 0 (2 * s.inLen.toNat) = samples.map BitVec.toInt ∧
      (∀ a, ¬(s.outBase.toNat ≤ a ∧ a < s.outBase.toNat + len) → t.mem.read a = s.mem.read a) ∧
      (∀ c, ∃ run, decodeRun s.steps { si := 0, pred := 0 }
          (channelItems lay c (bufferCodes s.mem s.inBase 0 s.inLen.toNat)) = .ok run ∧
        channelItems lay c samples = run.map ChannelRegs.pred ∧ t.chan c = lastRegs run) ∧
      t = { s with ch0 := t.ch0, ch1 := t.ch1, err := 0, outLen := t.outLen, mem := t.mem }

/-- 41_stream_codec.md R109: decoding what was encoded gives the encoder's own reconstruction of every sample, on every
channel; an odd count adds samples only after them. -/
def Obligations.DecodeOfEncodedStreamIsReconstruction : Prop :=
  ∀ (s t u v : State) (lay : Layout) (outBase outCap : Word), s.Inv → s.memFault = [] →
    s.channels = (match lay with | .mono => 1 | .stereo => 2) →
    exec .encode s = .next t → t.err = 0 →
    u = { t with inBase := t.outBase, inLen := t.outLen, outBase := outBase, outCap := outCap } →
    exec .decode u = .next v → v.err = 0 →
    ∀ c, ∃ run, encodeRun s.steps { si := 0, pred := 0 }
        (channelItems lay c (bufferSamples s.mem s.inBase 0 (s.inLen.toNat / 2))) = .ok run ∧
      (run.map fun step => step.2.pred.toInt) <+:
        channelItems lay c (bufferSamples v.mem outBase 0 (2 * t.outLen.toNat))

/-- 20_memory.md R48: executing a stream command again, with nothing changed in between, reproduces the same state, under
the spec's default MEM_FAULT. -/
def Obligations.StreamCommandIsIdempotent : Prop :=
  ∀ (s t : State) (i : Instr), s.Inv → s.memFault = [] → i = .encode ∨ i = .decode → exec i s = .next t →
    exec i t = .next t

/-- 41_stream_codec.md R110: in stereo, what CH0 leaves depends on the even-numbered samples (high nibbles) only, what CH1
leaves on the odd-numbered ones (low nibbles) only. -/
def Obligations.StereoChannelsDoNotMix : Prop :=
  ∀ (s t t' : State) (m : Memory), s.Inv → m.wf = true → s.memFault = [] → s.channels = 2 →
    (exec .encode s = .next t → exec .encode { s with mem := m } = .next t' → t.err = 0 →
      ((∀ k, 2 * k < s.inLen.toNat / 2 → bufferSample m s.inBase (2 * k) = bufferSample s.mem s.inBase (2 * k)) →
        t.ch0 = t'.ch0 ∧ ∀ j < t.outLen.toNat,
          Nibble.high.extract (t.mem.read (s.outBase.toNat + j)) =
            Nibble.high.extract (t'.mem.read (s.outBase.toNat + j))) ∧
      ((∀ k, 2 * k + 1 < s.inLen.toNat / 2 →
          bufferSample m s.inBase (2 * k + 1) = bufferSample s.mem s.inBase (2 * k + 1)) →
        t.ch1 = t'.ch1 ∧ ∀ j < t.outLen.toNat,
          Nibble.low.extract (t.mem.read (s.outBase.toNat + j)) =
            Nibble.low.extract (t'.mem.read (s.outBase.toNat + j)))) ∧
    (exec .decode s = .next t → exec .decode { s with mem := m } = .next t' → t.err = 0 →
      ((∀ j < s.inLen.toNat, Nibble.high.extract (m.read (s.inBase.toNat + j)) =
          Nibble.high.extract (s.mem.read (s.inBase.toNat + j))) →
        t.ch0 = t'.ch0 ∧ ∀ j < s.inLen.toNat, bufferSample t.mem s.outBase (2 * j) = bufferSample t'.mem s.outBase (2 * j)) ∧
      ((∀ j < s.inLen.toNat, Nibble.low.extract (m.read (s.inBase.toNat + j)) =
          Nibble.low.extract (s.mem.read (s.inBase.toNat + j))) →
        t.ch1 = t'.ch1 ∧ ∀ j < s.inLen.toNat,
          bufferSample t.mem s.outBase (2 * j + 1) = bufferSample t'.mem s.outBase (2 * j + 1)))

/-- 10_state.md R27, 20_memory.md R43: the frame of the stream commands, failed or not and under any MEM_FAULT. A failed one
stores nothing; a successful one stores only its output range, and writes no register but the channels, ERR and OUT_LEN. -/
def Obligations.StreamCommandFrame : Prop :=
  ∀ (s t : State) (i : Instr), i = .encode ∨ i = .decode → exec i s = .next t →
    t = { s with ch0 := t.ch0, ch1 := t.ch1, err := t.err, sticky := t.sticky, outLen := t.outLen, mem := t.mem } ∧
    (t.err ≠ 0 → t.ch0 = s.ch0 ∧ t.ch1 = s.ch1 ∧ t.outLen = s.outLen ∧ t.mem = s.mem) ∧
    (t.err = 0 → t.sticky = s.sticky ∧ t.outLen.toNat ≤ s.outCap.toNat ∧
      ∀ a, ¬(s.outBase.toNat ≤ a ∧ a < s.outBase.toNat + t.outLen.toNat) → t.mem.read a = s.mem.read a)

/-- 92_eei_decisions.md D15, 20_memory.md R43: a stream command that gets past its checks accesses every byte of both ranges,
so it faults when MEM_FAULT holds one of them. That MEM_FAULT is a set of addresses and does not tell reads from writes is
the model's choice (log entry 3, DESIGN CHOICE); D15 says only that a failing access faults the command. -/
def Obligations.StreamCommandFaultsOnFailingByte : Prop :=
  ∀ (s : State) (lay : Layout) (len a : Nat) (dir : Direction), StreamReady dir s lay len → a ∈ s.memFault →
    (s.inBase.toNat ≤ a ∧ a < s.inBase.toNat + s.inLen.toNat) ∨ (s.outBase.toNat ≤ a ∧ a < s.outBase.toNat + len) →
    exec (match dir with | .enc => .encode | .dec => .decode) s = .fault .bufferAccess

/-- 92_eei_decisions.md D15, 20_memory.md R43: failing addresses outside both ranges change nothing. What a stream command
answers when no address fails (EncodePacksEachChannelsRun, DecodeUnpacksEachChannelsRun) it answers under them too. That
MEM_FAULT is a set of addresses is the model's choice (log entry 3, DESIGN CHOICE). -/
def Obligations.FailingBytesOutsideTheRangesChangeNothing : Prop :=
  ∀ (s t : State) (lay : Layout) (len : Nat) (dir : Direction), StreamReady dir s lay len →
    (∀ a ∈ s.memFault, ¬(s.inBase.toNat ≤ a ∧ a < s.inBase.toNat + s.inLen.toNat) ∧
      ¬(s.outBase.toNat ≤ a ∧ a < s.outBase.toNat + len)) →
    exec (match dir with | .enc => .encode | .dec => .decode) { s with memFault := [] } = .next t →
    exec (match dir with | .enc => .encode | .dec => .decode) s = .next { t with memFault := s.memFault }

/-! ### Reset, registers and buffer memory -/

/-- 70_reset_and_hazards.md R141: reset writes these values and leaves tables and buffer memory; the reset state has the same
register values. The fields `pending`, `readData` and `memFault` are the model's own: that reset leaves the accesses after it
and the value last read is the model's choice (log entry 4, DESIGN CHOICE), and so is holding MEM_FAULT in State (log
entry 3). -/
def Obligations.ResetWritesTheListedValues : Prop :=
  (∀ (s : State) (rest : List HostAccess), s.pending = .reset :: rest →
    step s = .next { ch0 := { si := 0, pred := 0 }, ch1 := { si := 0, pred := 0 }, err := 0, sticky := false, channels := 1, inBase := 0, inLen := 0, outBase := 0, outCap := 0, outLen := 0, result := 0, steps := s.steps, mem := s.mem, memFault := s.memFault, pending := rest, readData := s.readData }) ∧
  State.reset = { State.reset with ch0 := { si := 0, pred := 0 }, ch1 := { si := 0, pred := 0 }, err := 0, sticky := false, channels := 1, inBase := 0, inLen := 0, outBase := 0, outCap := 0, outLen := 0, result := 0 }

/-- 10_state.md R22: the fields of STATUS as read, and a write: bit 4 clears STICKY, every other bit is ignored. -/
def Obligations.StatusReadsAndClears : Prop :=
  ∀ (s : State) (rest : List HostAccess),
    (s.pending = .regRead 0x04 4 :: rest → ∃ v : Word, step s = .next { s with pending := rest, readData := v } ∧
      v.extractLsb' 0 4 = s.err ∧ v.getLsbD 4 = s.sticky ∧ v.extractLsb' 5 27 = 0) ∧
    ∀ v : Word, s.pending = .regWrite 0x04 4 v :: rest →
      step s = .next { s with pending := rest, sticky := if v.getLsbD 4 then false else s.sticky }

/-- 10_state.md R29: the views of the channel registers; writes to them are ignored. -/
def Obligations.ChannelViewsShowTheChannels : Prop :=
  ∀ (s : State) (c : Channel) (off : BitVec 6) (rest : List HostAccess), (c, off) ∈ [(Channel.ch0, 0x24), (.ch1, 0x28)] →
    (s.pending = .regRead off 4 :: rest → ∃ v : Word, step s = .next { s with pending := rest, readData := v } ∧
      v.extractLsb' 0 16 = (s.chan c).pred ∧ v.extractLsb' 16 6 = (s.chan c).si ∧ v.extractLsb' 22 10 = 0) ∧
    ∀ v : Word, s.pending = .regWrite off 4 v :: rest → step s = .next { s with pending := rest }

/-- 10_state.md R23 to R28, R30: writes and reads of CFG, the buffer registers, OUT_LEN and RESULT. -/
def Obligations.RegistersHoldWhatIsWritten : Prop :=
  ∀ (s : State) (v : Word) (rest : List HostAccess),
    (s.pending = .regWrite 0x08 4 v :: rest → step s = .next { s with pending := rest, channels := v.extractLsb' 0 2 }) ∧
    (s.pending = .regWrite 0x0C 4 v :: rest → step s = .next { s with pending := rest, inBase := v }) ∧
    (s.pending = .regWrite 0x10 4 v :: rest → step s = .next { s with pending := rest, inLen := v }) ∧
    (s.pending = .regWrite 0x14 4 v :: rest → step s = .next { s with pending := rest, outBase := v }) ∧
    (s.pending = .regWrite 0x18 4 v :: rest → step s = .next { s with pending := rest, outCap := v }) ∧
    (s.pending = .regWrite 0x1C 4 v :: rest → step s = .next { s with pending := rest }) ∧
    (s.pending = .regWrite 0x20 4 v :: rest → step s = .next { s with pending := rest }) ∧
    (s.pending = .regRead 0x08 4 :: rest → step s = .next { s with pending := rest, readData := s.channels.setWidth 32 }) ∧
    (s.pending = .regRead 0x0C 4 :: rest → step s = .next { s with pending := rest, readData := s.inBase }) ∧
    (s.pending = .regRead 0x10 4 :: rest → step s = .next { s with pending := rest, readData := s.inLen }) ∧
    (s.pending = .regRead 0x14 4 :: rest → step s = .next { s with pending := rest, readData := s.outBase }) ∧
    (s.pending = .regRead 0x18 4 :: rest → step s = .next { s with pending := rest, readData := s.outCap }) ∧
    (s.pending = .regRead 0x1C 4 :: rest → step s = .next { s with pending := rest, readData := s.outLen }) ∧
    (s.pending = .regRead 0x20 4 :: rest → step s = .next { s with pending := rest, readData := s.result })

/-- 10_state.md R31: no other width or alignment; unmapped offsets read 0 and ignore writes; read-only registers ignore
writes; a read has no side effect. -/
def Obligations.RegisterAccessRules : Prop :=
  ∀ (s : State) (off : BitVec 6) (bytes : Nat) (v : Word) (rest : List HostAccess),
    (bytes ≠ 4 ∨ off.toNat % 4 ≠ 0 →
      (s.pending = .regRead off bytes :: rest → step s = .refused .registerAccess) ∧
      (s.pending = .regWrite off bytes v :: rest → step s = .refused .registerAccess)) ∧
    (off.toNat % 4 = 0 → s.pending = .regRead off 4 :: rest →
      ∃ x, step s = .next { s with pending := rest, readData := x } ∧ (0x2C ≤ off.toNat → x = 0)) ∧
    (off.toNat % 4 = 0 → 0x1C ≤ off.toNat → s.pending = .regWrite off 4 v :: rest →
      step s = .next { s with pending := rest })

/-- 20_memory.md R53, R48: a host read of a buffer byte returns the last write to it, and a write changes only its byte. -/
def Obligations.BufferReadsReturnLastWrite : Prop :=
  ∀ (s : State) (a b : Word) (v : Byte) (rest : List HostAccess), s.mem.wf = true →
    s.pending = .memWrite a v :: .memRead b :: rest →
    ∃ t u, step s = .next t ∧ step t = .next u ∧ t = { s with pending := .memRead b :: rest, mem := t.mem } ∧
      u = { t with pending := rest, readData := (if b = a then v else s.mem.read b.toNat).setWidth 32 }

/-- 00_scope.md R8, 10_state.md R17: 49 entries, positive and strictly increasing, in every table the model allows; and
every such sequence is a table of the model. -/
def Obligations.StepTablesAreTheLegalOnes : Prop :=
  (∀ (t : StepTable) (i j : Nat) (hij : i < j) (hj : j < 49), 1 ≤ t.entries[i] ∧ t.entries[i] < t.entries[j]) ∧
  ∀ e : Vector Nat 49, 1 ≤ e[0] → (∀ (i : Nat) (h : i < 48), e[i] < e[i + 1]) → ∃ t : StepTable, t.entries = e

/-! ### The host's side -/

/-- 30_encoding.md R73: the pseudo-instructions' expansions. -/
def Obligations.PseudoInstructionsExpand : Prop :=
  lineAccesses .mono = [.regWrite 0x08 4 1] ∧ lineAccesses .stereo = [.regWrite 0x08 4 2] ∧
  (∀ base len, lineAccesses (.setin base len) = [.regWrite 0x0C 4 base, .regWrite 0x10 4 len]) ∧
  (∀ base cap, lineAccesses (.setout base cap) = [.regWrite 0x14 4 base, .regWrite 0x18 4 cap]) ∧
  lineAccesses .resetall = [.regWrite 0x00 4 0x10000000, .regWrite 0x00 4 0x11000000] ∧
  lineAccesses .clrsticky = [.regWrite 0x04 4 0x10]

/-- 20_memory.md R57, R58: a file with a correct header gives its payload; a file that is too short, or whose magic or size
field is wrong, is taken whole. -/
def Obligations.ContainerHeaderIsSkipped : Prop :=
  (∀ (size filler payload : List Byte), size.length = 4 → filler.length = 8 →
    (size.map BitVec.toNat).foldl (fun n b => n * 256 + b) 0 = payload.length →
    codecInput ([0x41, 0x44, 0x50, 0x02] ++ size ++ filler ++ payload) = payload) ∧
  ∀ f : List Byte, (f.length < 16 ∨ f.take 4 ≠ [0x41, 0x44, 0x50, 0x02] ∨
      (((f.drop 4).take 4).map BitVec.toNat).foldl (fun n b => n * 256 + b) 0 + 16 ≠ f.length) → codecInput f = f

/-- 10_state.md R20, 92_eei_decisions.md D27: the window is 0x40 bytes at a 0x40-aligned REG_BASE; a platform address in it
reaches its offset, any other address does not reach the block. -/
def Obligations.WindowRoutesItsAddresses : Prop :=
  Config.regBase % 0x40 = 0 ∧ (∀ off, windowOffset (Config.regBase + off.toNat) = some off) ∧
  ∀ addr, addr < Config.regBase ∨ Config.regBase + 0x40 ≤ addr → windowOffset addr = none
end

