-- ==== Sys2Proof/Laws/State.lean ====
section
/-! SUPPORT. What each named update leaves in each field: one lemma per field per update, true by computation. -/

namespace Sys2Proof.Machine

variable (s : State) (e : CmdError) (c : Channel) (r : ChannelRegs) (m : Memory) (v : Word)

-- raise
@[simp] theorem State.raise_ch0 : (s.raise e).ch0 = s.ch0 := rfl
@[simp] theorem State.raise_ch1 : (s.raise e).ch1 = s.ch1 := rfl
@[simp] theorem State.raise_err : (s.raise e).err = e.code := rfl
@[simp] theorem State.raise_sticky : (s.raise e).sticky = true := rfl
@[simp] theorem State.raise_channels : (s.raise e).channels = s.channels := rfl
@[simp] theorem State.raise_inBase : (s.raise e).inBase = s.inBase := rfl
@[simp] theorem State.raise_inLen : (s.raise e).inLen = s.inLen := rfl
@[simp] theorem State.raise_outBase : (s.raise e).outBase = s.outBase := rfl
@[simp] theorem State.raise_outCap : (s.raise e).outCap = s.outCap := rfl
@[simp] theorem State.raise_outLen : (s.raise e).outLen = s.outLen := rfl
@[simp] theorem State.raise_result : (s.raise e).result = s.result := rfl
@[simp] theorem State.raise_steps : (s.raise e).steps = s.steps := rfl
@[simp] theorem State.raise_mem : (s.raise e).mem = s.mem := rfl
@[simp] theorem State.raise_memFault : (s.raise e).memFault = s.memFault := rfl
@[simp] theorem State.raise_pending : (s.raise e).pending = s.pending := rfl
@[simp] theorem State.raise_readData : (s.raise e).readData = s.readData := rfl

-- succeed
@[simp] theorem State.succeed_ch0 : (s.succeed).ch0 = s.ch0 := rfl
@[simp] theorem State.succeed_ch1 : (s.succeed).ch1 = s.ch1 := rfl
@[simp] theorem State.succeed_err : (s.succeed).err = 0 := rfl
@[simp] theorem State.succeed_sticky : (s.succeed).sticky = s.sticky := rfl
@[simp] theorem State.succeed_channels : (s.succeed).channels = s.channels := rfl
@[simp] theorem State.succeed_inBase : (s.succeed).inBase = s.inBase := rfl
@[simp] theorem State.succeed_inLen : (s.succeed).inLen = s.inLen := rfl
@[simp] theorem State.succeed_outBase : (s.succeed).outBase = s.outBase := rfl
@[simp] theorem State.succeed_outCap : (s.succeed).outCap = s.outCap := rfl
@[simp] theorem State.succeed_outLen : (s.succeed).outLen = s.outLen := rfl
@[simp] theorem State.succeed_result : (s.succeed).result = s.result := rfl
@[simp] theorem State.succeed_steps : (s.succeed).steps = s.steps := rfl
@[simp] theorem State.succeed_mem : (s.succeed).mem = s.mem := rfl
@[simp] theorem State.succeed_memFault : (s.succeed).memFault = s.memFault := rfl
@[simp] theorem State.succeed_pending : (s.succeed).pending = s.pending := rfl
@[simp] theorem State.succeed_readData : (s.succeed).readData = s.readData := rfl

-- setChan
@[simp] theorem State.setChan_err : (s.setChan c r).err = s.err := by cases c <;> rfl
@[simp] theorem State.setChan_sticky : (s.setChan c r).sticky = s.sticky := by cases c <;> rfl
@[simp] theorem State.setChan_channels : (s.setChan c r).channels = s.channels := by cases c <;> rfl
@[simp] theorem State.setChan_inBase : (s.setChan c r).inBase = s.inBase := by cases c <;> rfl
@[simp] theorem State.setChan_inLen : (s.setChan c r).inLen = s.inLen := by cases c <;> rfl
@[simp] theorem State.setChan_outBase : (s.setChan c r).outBase = s.outBase := by cases c <;> rfl
@[simp] theorem State.setChan_outCap : (s.setChan c r).outCap = s.outCap := by cases c <;> rfl
@[simp] theorem State.setChan_outLen : (s.setChan c r).outLen = s.outLen := by cases c <;> rfl
@[simp] theorem State.setChan_result : (s.setChan c r).result = s.result := by cases c <;> rfl
@[simp] theorem State.setChan_steps : (s.setChan c r).steps = s.steps := by cases c <;> rfl
@[simp] theorem State.setChan_mem : (s.setChan c r).mem = s.mem := by cases c <;> rfl
@[simp] theorem State.setChan_memFault : (s.setChan c r).memFault = s.memFault := by cases c <;> rfl
@[simp] theorem State.setChan_pending : (s.setChan c r).pending = s.pending := by cases c <;> rfl
@[simp] theorem State.setChan_readData : (s.setChan c r).readData = s.readData := by cases c <;> rfl

-- freshChannels
@[simp] theorem State.freshChannels_ch0 : (s.freshChannels).ch0 = ChannelRegs.initial := rfl
@[simp] theorem State.freshChannels_ch1 : (s.freshChannels).ch1 = ChannelRegs.initial := rfl
@[simp] theorem State.freshChannels_err : (s.freshChannels).err = s.err := rfl
@[simp] theorem State.freshChannels_sticky : (s.freshChannels).sticky = s.sticky := rfl
@[simp] theorem State.freshChannels_channels : (s.freshChannels).channels = s.channels := rfl
@[simp] theorem State.freshChannels_inBase : (s.freshChannels).inBase = s.inBase := rfl
@[simp] theorem State.freshChannels_inLen : (s.freshChannels).inLen = s.inLen := rfl
@[simp] theorem State.freshChannels_outBase : (s.freshChannels).outBase = s.outBase := rfl
@[simp] theorem State.freshChannels_outCap : (s.freshChannels).outCap = s.outCap := rfl
@[simp] theorem State.freshChannels_outLen : (s.freshChannels).outLen = s.outLen := rfl
@[simp] theorem State.freshChannels_result : (s.freshChannels).result = s.result := rfl
@[simp] theorem State.freshChannels_steps : (s.freshChannels).steps = s.steps := rfl
@[simp] theorem State.freshChannels_mem : (s.freshChannels).mem = s.mem := rfl
@[simp] theorem State.freshChannels_memFault : (s.freshChannels).memFault = s.memFault := rfl
@[simp] theorem State.freshChannels_pending : (s.freshChannels).pending = s.pending := rfl
@[simp] theorem State.freshChannels_readData : (s.freshChannels).readData = s.readData := rfl

-- blockReset
@[simp] theorem State.blockReset_ch0 : (s.blockReset).ch0 = ChannelRegs.initial := rfl
@[simp] theorem State.blockReset_ch1 : (s.blockReset).ch1 = ChannelRegs.initial := rfl
@[simp] theorem State.blockReset_err : (s.blockReset).err = 0 := rfl
@[simp] theorem State.blockReset_sticky : (s.blockReset).sticky = false := rfl
@[simp] theorem State.blockReset_channels : (s.blockReset).channels = 1 := rfl
@[simp] theorem State.blockReset_inBase : (s.blockReset).inBase = 0 := rfl
@[simp] theorem State.blockReset_inLen : (s.blockReset).inLen = 0 := rfl
@[simp] theorem State.blockReset_outBase : (s.blockReset).outBase = 0 := rfl
@[simp] theorem State.blockReset_outCap : (s.blockReset).outCap = 0 := rfl
@[simp] theorem State.blockReset_outLen : (s.blockReset).outLen = 0 := rfl
@[simp] theorem State.blockReset_result : (s.blockReset).result = 0 := rfl
@[simp] theorem State.blockReset_steps : (s.blockReset).steps = s.steps := rfl
@[simp] theorem State.blockReset_mem : (s.blockReset).mem = s.mem := rfl
@[simp] theorem State.blockReset_memFault : (s.blockReset).memFault = s.memFault := rfl
@[simp] theorem State.blockReset_pending : (s.blockReset).pending = s.pending := rfl
@[simp] theorem State.blockReset_readData : (s.blockReset).readData = s.readData := rfl

-- setMem
@[simp] theorem State.setMem_ch0 : (s.setMem m).ch0 = s.ch0 := rfl
@[simp] theorem State.setMem_ch1 : (s.setMem m).ch1 = s.ch1 := rfl
@[simp] theorem State.setMem_err : (s.setMem m).err = s.err := rfl
@[simp] theorem State.setMem_sticky : (s.setMem m).sticky = s.sticky := rfl
@[simp] theorem State.setMem_channels : (s.setMem m).channels = s.channels := rfl
@[simp] theorem State.setMem_inBase : (s.setMem m).inBase = s.inBase := rfl
@[simp] theorem State.setMem_inLen : (s.setMem m).inLen = s.inLen := rfl
@[simp] theorem State.setMem_outBase : (s.setMem m).outBase = s.outBase := rfl
@[simp] theorem State.setMem_outCap : (s.setMem m).outCap = s.outCap := rfl
@[simp] theorem State.setMem_outLen : (s.setMem m).outLen = s.outLen := rfl
@[simp] theorem State.setMem_result : (s.setMem m).result = s.result := rfl
@[simp] theorem State.setMem_steps : (s.setMem m).steps = s.steps := rfl
@[simp] theorem State.setMem_mem : (s.setMem m).mem = m := rfl
@[simp] theorem State.setMem_memFault : (s.setMem m).memFault = s.memFault := rfl
@[simp] theorem State.setMem_pending : (s.setMem m).pending = s.pending := rfl
@[simp] theorem State.setMem_readData : (s.setMem m).readData = s.readData := rfl

-- setResult
@[simp] theorem State.setResult_ch0 : (s.setResult v).ch0 = s.ch0 := rfl
@[simp] theorem State.setResult_ch1 : (s.setResult v).ch1 = s.ch1 := rfl
@[simp] theorem State.setResult_err : (s.setResult v).err = s.err := rfl
@[simp] theorem State.setResult_sticky : (s.setResult v).sticky = s.sticky := rfl
@[simp] theorem State.setResult_channels : (s.setResult v).channels = s.channels := rfl
@[simp] theorem State.setResult_inBase : (s.setResult v).inBase = s.inBase := rfl
@[simp] theorem State.setResult_inLen : (s.setResult v).inLen = s.inLen := rfl
@[simp] theorem State.setResult_outBase : (s.setResult v).outBase = s.outBase := rfl
@[simp] theorem State.setResult_outCap : (s.setResult v).outCap = s.outCap := rfl
@[simp] theorem State.setResult_outLen : (s.setResult v).outLen = s.outLen := rfl
@[simp] theorem State.setResult_result : (s.setResult v).result = v := rfl
@[simp] theorem State.setResult_steps : (s.setResult v).steps = s.steps := rfl
@[simp] theorem State.setResult_mem : (s.setResult v).mem = s.mem := rfl
@[simp] theorem State.setResult_memFault : (s.setResult v).memFault = s.memFault := rfl
@[simp] theorem State.setResult_pending : (s.setResult v).pending = s.pending := rfl
@[simp] theorem State.setResult_readData : (s.setResult v).readData = s.readData := rfl

-- setOutLen
@[simp] theorem State.setOutLen_ch0 : (s.setOutLen v).ch0 = s.ch0 := rfl
@[simp] theorem State.setOutLen_ch1 : (s.setOutLen v).ch1 = s.ch1 := rfl
@[simp] theorem State.setOutLen_err : (s.setOutLen v).err = s.err := rfl
@[simp] theorem State.setOutLen_sticky : (s.setOutLen v).sticky = s.sticky := rfl
@[simp] theorem State.setOutLen_channels : (s.setOutLen v).channels = s.channels := rfl
@[simp] theorem State.setOutLen_inBase : (s.setOutLen v).inBase = s.inBase := rfl
@[simp] theorem State.setOutLen_inLen : (s.setOutLen v).inLen = s.inLen := rfl
@[simp] theorem State.setOutLen_outBase : (s.setOutLen v).outBase = s.outBase := rfl
@[simp] theorem State.setOutLen_outCap : (s.setOutLen v).outCap = s.outCap := rfl
@[simp] theorem State.setOutLen_outLen : (s.setOutLen v).outLen = v := rfl
@[simp] theorem State.setOutLen_result : (s.setOutLen v).result = s.result := rfl
@[simp] theorem State.setOutLen_steps : (s.setOutLen v).steps = s.steps := rfl
@[simp] theorem State.setOutLen_mem : (s.setOutLen v).mem = s.mem := rfl
@[simp] theorem State.setOutLen_memFault : (s.setOutLen v).memFault = s.memFault := rfl
@[simp] theorem State.setOutLen_pending : (s.setOutLen v).pending = s.pending := rfl
@[simp] theorem State.setOutLen_readData : (s.setOutLen v).readData = s.readData := rfl

-- setReadData
@[simp] theorem State.setReadData_ch0 : (s.setReadData v).ch0 = s.ch0 := rfl
@[simp] theorem State.setReadData_ch1 : (s.setReadData v).ch1 = s.ch1 := rfl
@[simp] theorem State.setReadData_err : (s.setReadData v).err = s.err := rfl
@[simp] theorem State.setReadData_sticky : (s.setReadData v).sticky = s.sticky := rfl
@[simp] theorem State.setReadData_channels : (s.setReadData v).channels = s.channels := rfl
@[simp] theorem State.setReadData_inBase : (s.setReadData v).inBase = s.inBase := rfl
@[simp] theorem State.setReadData_inLen : (s.setReadData v).inLen = s.inLen := rfl
@[simp] theorem State.setReadData_outBase : (s.setReadData v).outBase = s.outBase := rfl
@[simp] theorem State.setReadData_outCap : (s.setReadData v).outCap = s.outCap := rfl
@[simp] theorem State.setReadData_outLen : (s.setReadData v).outLen = s.outLen := rfl
@[simp] theorem State.setReadData_result : (s.setReadData v).result = s.result := rfl
@[simp] theorem State.setReadData_steps : (s.setReadData v).steps = s.steps := rfl
@[simp] theorem State.setReadData_mem : (s.setReadData v).mem = s.mem := rfl
@[simp] theorem State.setReadData_memFault : (s.setReadData v).memFault = s.memFault := rfl
@[simp] theorem State.setReadData_pending : (s.setReadData v).pending = s.pending := rfl
@[simp] theorem State.setReadData_readData : (s.setReadData v).readData = v := rfl

@[simp] theorem State.setChan_ch0_ch0 : (s.setChan .ch0 r).ch0 = r := rfl
@[simp] theorem State.setChan_ch0_ch1 : (s.setChan .ch0 r).ch1 = s.ch1 := rfl
@[simp] theorem State.setChan_ch1_ch0 : (s.setChan .ch1 r).ch0 = s.ch0 := rfl
@[simp] theorem State.setChan_ch1_ch1 : (s.setChan .ch1 r).ch1 = r := rfl
@[simp] theorem State.chan_ch0 : s.chan .ch0 = s.ch0 := rfl
@[simp] theorem State.chan_ch1 : s.chan .ch1 = s.ch1 := rfl

/-- Reading a channel just set gives what was set. -/
@[simp] theorem State.chan_setChan_same : (s.setChan c r).chan c = r := by cases c <;> rfl

/-- Memory is no channel. -/
@[simp] theorem State.chan_setMem : (s.setMem m).chan c = s.chan c := by cases c <;> rfl

/-- Memory and channels are written independently. -/
theorem State.setChan_setMem : (s.setMem m).setChan c r = (s.setChan c r).setMem m := by cases c <;> rfl

/-- The latest memory stands. -/
@[simp] theorem State.setMem_setMem (m' : Memory) : (s.setMem m).setMem m' = s.setMem m' := rfl

/-- Setting a channel leaves the other one (40_channel_codec.md R89). -/
theorem State.chan_setChan_other {c d : Channel} (h : d ≠ c) : (s.setChan c r).chan d = s.chan d := by
  cases c <;> cases d <;> first | rfl | exact absurd rfl h

/-- Both channels are fresh after the prologue. -/
@[simp] theorem State.chan_freshChannels : s.freshChannels.chan c = ChannelRegs.initial := by cases c <;> rfl

end Sys2Proof.Machine
end

