-- ==== Sys2Proof/Laws/Codec.lean ====
section
/-! SUPPORT. The channel codec: when a lookup succeeds, what an update leaves, and that code and sample formats lose
nothing. -/

namespace Sys2Proof.Machine

/-- A bind of Except answers exactly when both parts do. -/
theorem bind_eq_ok {ε α β : Type} {x : Except ε α} {f : α → Except ε β} {b : β} :
    (x >>= f) = .ok b ↔ ∃ a, x = .ok a ∧ f a = .ok b := by
  cases x with
  | error e => constructor <;> intro h <;> simp [bind, Except.bind] at h
  | ok a => simp [bind, Except.bind]

/-- A bind of Except errs exactly when one of its parts does. -/
theorem bind_eq_error {ε α β : Type} {x : Except ε α} {f : α → Except ε β} {e : ε} :
    (x >>= f) = .error e ↔ x = .error e ∨ ∃ a, x = .ok a ∧ f a = .error e := by
  cases x with
  | error e => simp [bind, Except.bind]
  | ok a => simp [bind, Except.bind]

theorem ok_bind {ε α β : Type} (a : α) (f : α → Except ε β) : ((Except.ok a : Except ε α) >>= f) = f a := rfl

theorem pure_ok {ε α : Type} (a : α) : (pure a : Except ε α) = .ok a := rfl

section
variable {t : StepTable} {r r' : ChannelRegs} {step : Nat} {code : BitVec 4} {sample : Int}

/-- The lookup succeeds for an index in range (40_channel_codec.md R80). -/
theorem lookupStep_ok {si : BitVec 6} (h : si.toNat ≤ 48) :
    lookupStep t si = .ok (t.entries[si.toNat]'(by omega)) := by
  rw [lookupStep, dif_pos (by omega)]

/-- The lookup faults for an index above 48 (R80). -/
theorem lookupStep_error {si : BitVec 6} (h : 48 < si.toNat) : lookupStep t si = .error .stepIndexOutOfRange := by
  rw [lookupStep, dif_neg (by omega)]

theorem clamp_bounds {x lo hi : Int} (h : lo ≤ hi) : lo ≤ clamp x lo hi ∧ clamp x lo hi ≤ hi := by
  unfold clamp; omega

/-- SI after an update is the clamped sum: nothing wraps (R82, R84). -/
theorem updateWith_si : ((updateWith step r code).si.toNat : Int) = clamp (r.si.toNat + indexDelta code) 0 48 := by
  have h := clamp_bounds (x := (r.si.toNat : Int) + indexDelta code) (show (0 : Int) ≤ 48 by decide)
  simp only [updateWith, BitVec.toNat_ofInt]
  omega

/-- PRED after an update is the clamped sum: nothing wraps (R82, R84). -/
theorem updateWith_pred :
    (updateWith step r code).pred.toInt = clamp (r.pred.toInt + codeDelta step code) (-32768) 32767 := by
  have h := clamp_bounds (x := r.pred.toInt + codeDelta step code) (show (-32768 : Int) ≤ 32767 by decide)
  simp only [updateWith, BitVec.toInt_ofInt]
  rw [Int.bmod_eq_of_le] <;> omega

/-- Every update leaves SI in range (10_state.md R14). -/
theorem updateWith_inRange : (updateWith step r code).inRange := by
  have h := clamp_bounds (x := (r.si.toNat : Int) + indexDelta code) (show (0 : Int) ≤ 48 by decide)
  have h' := updateWith_si (step := step) (r := r) (code := code)
  unfold ChannelRegs.inRange
  omega

theorem initial_inRange : ChannelRegs.initial.inRange := Nat.zero_le _

theorem decodeUpdate_ok (h : r.inRange) :
    decodeUpdate t r code = .ok (updateWith (t.entries[r.si.toNat]'(by unfold ChannelRegs.inRange at h; omega)) r code) := by
  rw [decodeUpdate, lookupStep_ok h]; rfl

/-- What an update that succeeds can be. -/
theorem decodeUpdate_eq_ok (h : decodeUpdate t r code = .ok r') :
    ∃ step, lookupStep t r.si = .ok step ∧ r' = updateWith step r code := by
  obtain ⟨step, h1, h2⟩ := bind_eq_ok.mp h
  exact ⟨step, h1, (Except.ok.inj h2).symm⟩

theorem decodeUpdate_inRange (h : decodeUpdate t r code = .ok r') : r'.inRange := by
  obtain ⟨_, _, rfl⟩ := decodeUpdate_eq_ok h
  exact updateWith_inRange

/-- Two updates that succeed with one code on one channel agree. -/
theorem encodeStep_eq_ok (h : encodeStep t r sample = .ok (code, r')) :
    encodeQuantize t r sample = .ok code ∧ decodeUpdate t r code = .ok r' := by
  obtain ⟨c, h1, h2⟩ := bind_eq_ok.mp h
  obtain ⟨r2, h3, h4⟩ := bind_eq_ok.mp h2
  obtain ⟨rfl, rfl⟩ := Prod.mk.inj (Except.ok.inj h4)
  exact ⟨h1, h3⟩

/-- An encode step on a channel in range succeeds. -/
theorem encodeStep_ok (h : r.inRange) : ∃ code r', encodeStep t r sample = .ok (code, r') ∧ r'.inRange := by
  rw [encodeStep, encodeQuantize, lookupStep_ok h]
  simp only [ok_bind, pure_ok, decodeUpdate_ok h]
  exact ⟨_, _, rfl, updateWith_inRange⟩

theorem encodeStep_inRange (h : encodeStep t r sample = .ok (code, r')) : r'.inRange :=
  decodeUpdate_inRange (encodeStep_eq_ok h).2

/-- The two parts of a code read back from it. -/
theorem signedCode_parts (negative : Bool) {q : Nat} (hq : q < 8) :
    (signedCode negative q).getLsbD 3 = negative ∧ (signedCode negative q).toNat % 8 = q := by
  interval_cases q <;> cases negative <;> decide

/-- The sign bit of the quantized code is that of the raw delta (R83). -/
theorem quantizeWith_sign : (quantizeWith step r sample).getLsbD 3 = decide (sample < r.pred.toInt) := by
  rw [quantizeWith, (signedCode_parts _ (by omega)).1]
  exact decide_eq_decide.mpr (by omega)

/-- The mantissa of the quantized code is the clamped quotient (R83). -/
theorem quantizeWith_magnitude :
    (quantizeWith step r sample).toNat % 8 = min 7 (4 * (sample - r.pred.toInt).natAbs / step) := by
  rw [quantizeWith, (signedCode_parts _ (by omega)).2, Nat.shiftLeft_eq, Nat.mul_comm]

end

/-- A stored sample reads back (20_memory.md R44, R45). -/
theorem sampleOfBytes_stored (p : BitVec 16) : sampleOfBytes (sampleLow p) (sampleHigh p) = p.toInt := by
  unfold sampleOfBytes sampleLow sampleHigh
  congr 1
  ext i hi
  simp only [BitVec.getElem_append, BitVec.getElem_extractLsb']
  split
  · simp [BitVec.getLsbD_eq_getElem, *]
  · rw [show 8 + (i - 8) = i by omega, BitVec.getLsbD_eq_getElem]

/-- The byte ENCODE accumulates is the concatenation of its two codes (30_encoding.md R63). -/
theorem place_place (a b : BitVec 4) : (0#8 ||| Nibble.high.place a) ||| Nibble.low.place b = a ++ b := by
  revert a b; decide +kernel

theorem place_high (a : BitVec 4) : 0#8 ||| Nibble.high.place a = a ++ 0#4 := by
  revert a; decide

/-- Unpacking a packed byte gives its codes back. -/
theorem extract_high_append (a b : BitVec 4) : Nibble.high.extract (a ++ b) = a := by
  revert a b; decide +kernel

theorem extract_low_append (a b : BitVec 4) : Nibble.low.extract (a ++ b) = b := by
  revert a b; decide +kernel

end Sys2Proof.Machine
end

