-- ==== Sys2Proof/Laws/Decode.lean ====
section
/-! SUPPORT. The command word's fields as numbers, and a command word's fields read back. -/

namespace Sys2Proof

section
variable (w : Word) (op : BitVec 4) (ch : BitVec 1) (data : BitVec 16)

theorem opField_toNat : (opField w).toNat = w.toNat / 2 ^ 28 := by
  simp only [opField, BitVec.extractLsb'_toNat, Nat.shiftRight_eq_div_pow]; omega

theorem reservedHigh_toNat : (reservedHigh w).toNat = w.toNat / 2 ^ 25 % 8 := by
  simp only [reservedHigh, BitVec.extractLsb'_toNat, Nat.shiftRight_eq_div_pow]

theorem reservedMid_toNat : (reservedMid w).toNat = w.toNat / 2 ^ 16 % 256 := by
  simp only [reservedMid, BitVec.extractLsb'_toNat, Nat.shiftRight_eq_div_pow]

theorem dataField_toNat : (dataField w).toNat = w.toNat % 2 ^ 16 := by
  simp only [dataField, BitVec.extractLsb'_toNat, Nat.shiftRight_eq_div_pow]; omega

theorem extract_toNat (k n : Nat) : (w.extractLsb' k n).toNat = w.toNat / 2 ^ k % 2 ^ n := by
  simp only [BitVec.extractLsb'_toNat, Nat.shiftRight_eq_div_pow]

/-- The CH field is bit 24 (30_encoding.md R66). -/
theorem channelField_eq : channelField w = if w.toNat / 2 ^ 24 % 2 = 1 then .ch1 else .ch0 := by
  simp only [channelField, BitVec.getLsbD, Nat.testBit_eq_decide_div_mod_eq, decide_eq_true_eq]

theorem append_toNat {n m : Nat} (x : BitVec n) (y : BitVec m) : (x ++ y).toNat = x.toNat * 2 ^ m + y.toNat := by
  rw [BitVec.toNat_append, ← Nat.shiftLeft_add_eq_or_of_lt y.isLt, Nat.shiftLeft_eq]

/-- A command word as a number (R66). -/
theorem commandWord_toNat :
    (commandWord op ch data).toNat = op.toNat * 2 ^ 28 + ch.toNat * 2 ^ 24 + data.toNat := by
  unfold commandWord
  rw [append_toNat, append_toNat, append_toNat, append_toNat]
  simp only [BitVec.toNat_ofNat]
  omega

@[simp] theorem opField_commandWord : opField (commandWord op ch data) = op := by
  have := op.isLt; have := ch.isLt; have := data.isLt
  apply BitVec.eq_of_toNat_eq
  rw [opField_toNat, commandWord_toNat]; omega

@[simp] theorem reservedHigh_commandWord : reservedHigh (commandWord op ch data) = 0 := by
  have := op.isLt; have := ch.isLt; have := data.isLt
  apply BitVec.eq_of_toNat_eq
  rw [reservedHigh_toNat, commandWord_toNat]; show _ = 0; omega

@[simp] theorem reservedMid_commandWord : reservedMid (commandWord op ch data) = 0 := by
  have := op.isLt; have := ch.isLt; have := data.isLt
  apply BitVec.eq_of_toNat_eq
  rw [reservedMid_toNat, commandWord_toNat]; show _ = 0; omega

@[simp] theorem dataField_commandWord : dataField (commandWord op ch data) = data := by
  have := op.isLt; have := ch.isLt; have := data.isLt
  apply BitVec.eq_of_toNat_eq
  rw [dataField_toNat, commandWord_toNat]; omega

@[simp] theorem channelField_commandWord (c : Channel) : channelField (commandWord op (channelBit c) data) = c := by
  have := op.isLt; have := data.isLt
  rw [channelField_eq, commandWord_toNat]
  cases c <;> simp only [channelBit, BitVec.ofNat_eq_ofNat, BitVec.toNat_ofNat]
  · rw [if_neg (by omega)]
  · rw [if_pos (by omega)]

/-- The low bits of a command word are those of its data. -/
theorem extract_commandWord (k n : Nat) (h : k + n ≤ 16) :
    (commandWord op ch data).extractLsb' k n = data.extractLsb' k n := by
  apply BitVec.eq_of_getLsbD_eq
  intro i hi
  have hbit : (commandWord op ch data).getLsbD (k + i) = data.getLsbD (k + i) := by
    have := congrArg (fun x => x.getLsbD (k + i)) (dataField_commandWord op ch data)
    simpa [dataField, show k + i < 16 by omega] using this
  simp [hi, hbit]

/-- A field of a word is 0 exactly when each of its bits is. -/
theorem extract_eq_zero (k n : Nat) : w.extractLsb' k n = 0 ↔ ∀ i, k ≤ i → i < k + n → w.getLsbD i = false := by
  constructor
  · intro h i hk hi
    have := congrArg (fun x => x.getLsbD (i - k)) h
    simpa [show i - k < n by omega, show k + (i - k) = i by omega] using this
  · intro h
    apply BitVec.eq_of_getLsbD_eq
    intro i hi
    simpa [hi] using h (k + i) (by omega) (by omega)

end

end Sys2Proof
end

