-- ==== Sys2Proof/Laws/Memory.lean ====
section
/-! SUPPORT. Buffer memory: a read after a write, the canonical form is kept, and equal reads mean equal memories. -/

namespace Sys2Proof.Machine

variable {m : Memory} {lo a b : Nat} {v : Byte}

/-- A canonical memory stays canonical above a smaller bound. -/
theorem Memory.wfFrom_mono {lo' : Nat} (hle : lo' ≤ lo) (h : Memory.wfFrom lo m = true) :
    Memory.wfFrom lo' m = true := by
  cases m with
  | nil => rfl
  | cons c rest =>
    obtain ⟨k, w⟩ := c
    simp only [Memory.wfFrom, Bool.and_eq_true, decide_eq_true_eq] at h ⊢
    exact ⟨⟨⟨by omega, h.1.1.2⟩, h.1.2⟩, h.2⟩

/-- A byte below every listed address reads as the fill byte. -/
theorem Memory.read_below (h : Memory.wfFrom lo m = true) (ha : a < lo) : m.read a = Memory.fill := by
  induction m generalizing lo with
  | nil => rfl
  | cons c rest ih =>
    obtain ⟨k, w⟩ := c
    simp only [Memory.wfFrom, Bool.and_eq_true, decide_eq_true_eq] at h
    rw [Memory.read, if_neg (by omega), ih h.2 (by omega)]

theorem Memory.read_cons_same (h : Memory.wfFrom (a + 1) m = true) : (Memory.cons a v m).read a = v := by
  unfold Memory.cons
  split
  · rw [Memory.read_below h (by omega), ‹v = _›]
  · simp [Memory.read]

theorem Memory.read_cons_other (h : b ≠ a) : (Memory.cons a v m).read b = m.read b := by
  unfold Memory.cons
  split
  · rfl
  · simp [Memory.read, h]

theorem Memory.wf_cons (h : Memory.wfFrom (a + 1) m = true) (hlo : lo ≤ a) (ha : a < 2 ^ 32) :
    Memory.wfFrom lo (Memory.cons a v m) = true := by
  unfold Memory.cons
  split
  · exact Memory.wfFrom_mono (by omega) h
  · simp only [Memory.wfFrom, Bool.and_eq_true, decide_eq_true_eq]
    exact ⟨⟨⟨hlo, ha⟩, by simpa using ‹v ≠ _›⟩, h⟩

/-- A read of the byte just written gives that byte. -/
theorem Memory.read_write_same (h : Memory.wfFrom lo m = true) : (m.write a v).read a = v := by
  induction m generalizing lo with
  | nil => exact Memory.read_cons_same rfl
  | cons c rest ih =>
    obtain ⟨k, w⟩ := c
    have h' := h
    simp only [Memory.wfFrom, Bool.and_eq_true, decide_eq_true_eq] at h'
    unfold Memory.write
    split
    · refine Memory.read_cons_same ?_
      simp only [Memory.wfFrom, Bool.and_eq_true, decide_eq_true_eq]
      exact ⟨⟨⟨by omega, h'.1.1.2⟩, h'.1.2⟩, h'.2⟩
    · split
      · exact Memory.read_cons_same (by simpa [‹a = k›] using h'.2)
      · rw [Memory.read, if_neg ‹a ≠ k›, ih h'.2]

/-- A write leaves every other byte (20_memory.md R48). -/
theorem Memory.read_write_other (h : b ≠ a) : (m.write a v).read b = m.read b := by
  induction m with
  | nil => exact Memory.read_cons_other h
  | cons c rest ih =>
    obtain ⟨k, w⟩ := c
    unfold Memory.write
    split
    · exact Memory.read_cons_other h
    · split
      · rw [Memory.read_cons_other h, Memory.read, if_neg (by omega)]
      · simp only [Memory.read, ih]

/-- A write inside the address space keeps the canonical form. -/
theorem Memory.wfFrom_write (h : Memory.wfFrom lo m = true) (hlo : lo ≤ a) (ha : a < 2 ^ 32) :
    Memory.wfFrom lo (m.write a v) = true := by
  induction m generalizing lo with
  | nil => exact Memory.wf_cons rfl hlo ha
  | cons c rest ih =>
    obtain ⟨k, w⟩ := c
    have h' := h
    simp only [Memory.wfFrom, Bool.and_eq_true, decide_eq_true_eq] at h'
    unfold Memory.write
    split
    · refine Memory.wf_cons ?_ hlo ha
      simp only [Memory.wfFrom, Bool.and_eq_true, decide_eq_true_eq]
      exact ⟨⟨⟨by omega, h'.1.1.2⟩, h'.1.2⟩, h'.2⟩
    · split
      · exact Memory.wf_cons (by simpa [‹a = k›] using h'.2) hlo ha
      · simp only [Memory.wfFrom, Bool.and_eq_true, decide_eq_true_eq]
        exact ⟨⟨⟨h'.1.1.1, h'.1.1.2⟩, h'.1.2⟩, ih h'.2 (by omega)⟩

theorem Memory.wf_write (h : m.wf = true) (ha : a < 2 ^ 32) : (m.write a v).wf = true :=
  Memory.wfFrom_write h (Nat.zero_le a) ha

/-- A read after a write, in one equation. -/
theorem Memory.read_write (h : m.wf = true) : (m.write a v).read b = if b = a then v else m.read b := by
  split
  · subst b; exact Memory.read_write_same h
  · exact Memory.read_write_other ‹_›

/-- Canonical memories that read alike are equal: the form loses nothing. -/
theorem Memory.ext_of_read {m' : Memory} (h : Memory.wfFrom lo m = true) (h' : Memory.wfFrom lo m' = true)
    (hr : ∀ a, m.read a = m'.read a) : m = m' := by
  induction m generalizing lo m' with
  | nil =>
    cases m' with
    | nil => rfl
    | cons c rest =>
      obtain ⟨k, w⟩ := c
      have := hr k
      simp_all [Memory.wfFrom, Memory.read]
  | cons c rest ih =>
    obtain ⟨k, w⟩ := c
    have hk := hr k
    simp only [Memory.wfFrom, Bool.and_eq_true, decide_eq_true_eq] at h
    cases m' with
    | nil => simp_all [Memory.read]
    | cons c' rest' =>
      obtain ⟨k', w'⟩ := c'
      simp only [Memory.wfFrom, Bool.and_eq_true, decide_eq_true_eq] at h'
      have hk' := hr k'
      have hkk : k = k' := by
        by_contra hne
        rcases Nat.lt_or_gt_of_ne hne with hlt | hgt
        · rw [Memory.read, if_pos rfl, Memory.read, if_neg hne, Memory.read_below h'.2 (by omega)] at hk
          simp_all
        · rw [Memory.read, if_neg (Ne.symm hne), Memory.read, if_pos rfl, Memory.read_below h.2 (by omega)] at hk'
          simp_all
      subst hkk
      have hw : w = w' := by simpa [Memory.read] using hk
      subst hw
      congr 1
      refine ih h.2 h'.2 fun b => ?_
      by_cases hb : b = k
      · subst hb
        rw [Memory.read_below h.2 (by omega), Memory.read_below h'.2 (by omega)]
      · simpa [Memory.read, hb] using hr b

end Sys2Proof.Machine
end

