-- ==== Sys2Proof/Laws/Stream.lean ====
section
/-! SUPPORT. The stream commands: what the loops can touch, that they complete, and what they compute. -/

namespace Sys2Proof.Machine

/-- `s'` differs from `s` in the channels and in buffer bytes `lo ≤ a < hi` only, with the invariants kept. -/
def Touches (lo hi : Nat) (s s' : State) : Prop :=
  ∃ c0 c1 m, s' = { s with ch0 := c0, ch1 := c1, mem := m } ∧
    (∀ a, ¬(lo ≤ a ∧ a < hi) → m.read a = s.mem.read a) ∧
    (hi ≤ 2 ^ 32 → s.mem.wf = true → m.wf = true) ∧
    (s.ch0.inRange → c0.inRange) ∧ (s.ch1.inRange → c1.inRange)

section
variable {lo hi : Nat} {s s' s'' : State}

theorem Touches.refl : Touches lo hi s s :=
  ⟨s.ch0, s.ch1, s.mem, rfl, fun _ _ => rfl, fun _ h => h, id, id⟩

theorem Touches.trans (h : Touches lo hi s s') (h' : Touches lo hi s' s'') : Touches lo hi s s'' := by
  obtain ⟨c0, c1, m, rfl, hr, hw, h0, h1⟩ := h
  obtain ⟨d0, d1, m', rfl, hr', hw', h0', h1'⟩ := h'
  exact ⟨d0, d1, m', rfl, fun a ha => (hr' a ha).trans (hr a ha), fun hh hm => hw' hh (hw hh hm),
    fun h => h0' (h0 h), fun h => h1' (h1 h)⟩

theorem Touches.mono {lo' hi' : Nat} (hl : lo' ≤ lo) (hh : hi ≤ hi') (h : Touches lo hi s s') :
    Touches lo' hi' s s' := by
  obtain ⟨c0, c1, m, rfl, hr, hw, h0, h1⟩ := h
  exact ⟨c0, c1, m, rfl, fun a ha => hr a (by omega), fun hh' hm => hw (by omega) hm, h0, h1⟩

theorem Touches.outBase (h : Touches lo hi s s') : s'.outBase = s.outBase := by
  obtain ⟨_, _, _, rfl, _⟩ := h; rfl

theorem Touches.setChan {c : Channel} {r : ChannelRegs} (hr : r.inRange) : Touches lo hi s (s.setChan c r) := by
  cases c
  · exact ⟨r, s.ch1, s.mem, rfl, fun _ _ => rfl, fun _ h => h, fun _ => hr, id⟩
  · exact ⟨s.ch0, r, s.mem, rfl, fun _ _ => rfl, fun _ h => h, id, fun _ => hr⟩

/-- A write by the block that succeeds changes one byte. -/
theorem busWrite_touches {a : Nat} {v : Byte} (h : busWrite s a v = .ok s') : Touches a (a + 1) s s' := by
  unfold busWrite at h
  split at h
  · simp at h
  · obtain rfl := Except.ok.inj h
    exact ⟨s.ch0, s.ch1, _, rfl, fun b hb => Memory.read_write_other (by omega),
      fun hh hm => Memory.wf_write hm (by omega), id, id⟩

theorem encodeNibble_touches {lay : Layout} {n j : Nat} {h : Nibble} {acc acc' : Byte}
    (hs : encodeNibble lay n j h acc s = .ok (acc', s')) : Touches lo hi s s' := by
  unfold encodeNibble at hs
  split at hs
  · obtain ⟨x, _, hs⟩ := bind_eq_ok.mp hs
    obtain ⟨⟨code, r⟩, hr, hs⟩ := bind_eq_ok.mp hs
    obtain ⟨-, rfl⟩ := Prod.mk.inj (Except.ok.inj hs)
    exact Touches.setChan (encodeStep_inRange hr)
  · obtain ⟨-, rfl⟩ := Prod.mk.inj (Except.ok.inj hs)
    exact Touches.refl

theorem encodeByte_touches {lay : Layout} {n j : Nat} (hs : encodeByte lay n j s = .ok s') :
    Touches (s.outBase.toNat + j) (s.outBase.toNat + j + 1) s s' := by
  obtain ⟨⟨acc, s1⟩, h1, hs⟩ := bind_eq_ok.mp hs
  obtain ⟨⟨acc', s2⟩, h2, hs⟩ := bind_eq_ok.mp hs
  have t1 := encodeNibble_touches (lo := s.outBase.toNat + j) (hi := s.outBase.toNat + j + 1) h1
  have t2 := t1.trans (encodeNibble_touches h2)
  have t3 := busWrite_touches hs
  simp only [t2.outBase] at t3
  exact t2.trans t3

/-- ENCODE's loop touches the channels and its own output bytes only (20_memory.md R43). -/
theorem encodeBytes_touches {lay : Layout} {n : Nat} (count j : Nat) (hs : encodeBytes lay n j s count = .ok s') :
    Touches (s.outBase.toNat + j) (s.outBase.toNat + j + count) s s' := by
  induction count generalizing s j with
  | zero => obtain rfl := Except.ok.inj hs; exact Touches.refl
  | succ k ih =>
    obtain ⟨s1, h1, hs⟩ := bind_eq_ok.mp hs
    have t1 := encodeByte_touches h1
    have t2 := ih (j + 1) hs
    rw [t1.outBase] at t2
    exact (t1.mono (Nat.le_refl _) (by omega)).trans (t2.mono (by omega) (by omega))

theorem writeSample_touches {i : Nat} {p : BitVec 16} (hs : writeSample s i p = .ok s') :
    Touches (s.outBase.toNat + 2 * i) (s.outBase.toNat + 2 * i + 2) s s' := by
  obtain ⟨s1, h1, hs⟩ := bind_eq_ok.mp hs
  have t1 := busWrite_touches h1
  have t2 := busWrite_touches hs
  rw [t1.outBase] at t2
  simp only [sampleAddr] at t1 t2
  exact (t1.mono (by omega) (by omega)).trans (t2.mono (by omega) (by omega))

theorem decodeNibble_touches {lay : Layout} {j : Nat} {h : Nibble} {b : Byte}
    (hs : decodeNibble lay j h b s = .ok s') :
    Touches (s.outBase.toNat + 4 * j) (s.outBase.toNat + 4 * j + 4) s s' := by
  obtain ⟨r, hr, hs⟩ := bind_eq_ok.mp hs
  have t1 : Touches (s.outBase.toNat + 4 * j) (s.outBase.toNat + 4 * j + 4) s (s.setChan (lay.channel h) r) :=
    Touches.setChan (decodeUpdate_inRange hr)
  have t2 := writeSample_touches hs
  rw [t1.outBase] at t2
  refine t1.trans (t2.mono ?_ ?_) <;> cases h <;> simp only [sampleIndex, Nibble.index] <;> omega

theorem decodeByte_touches {lay : Layout} {j : Nat} (hs : decodeByte lay j s = .ok s') :
    Touches (s.outBase.toNat + 4 * j) (s.outBase.toNat + 4 * j + 4) s s' := by
  obtain ⟨b, _, hs⟩ := bind_eq_ok.mp hs
  obtain ⟨s1, h1, hs⟩ := bind_eq_ok.mp hs
  have t1 := decodeNibble_touches h1
  have t2 := decodeNibble_touches hs
  rw [t1.outBase] at t2
  exact t1.trans t2

/-- DECODE's loop touches the channels and its own output bytes only (R43). -/
theorem decodeBytes_touches {lay : Layout} (count j : Nat) (hs : decodeBytes lay j s count = .ok s') :
    Touches (s.outBase.toNat + 4 * j) (s.outBase.toNat + 4 * (j + count)) s s' := by
  induction count generalizing s j with
  | zero => obtain rfl := Except.ok.inj hs; exact Touches.refl
  | succ k ih =>
    obtain ⟨s1, h1, hs⟩ := bind_eq_ok.mp hs
    have t1 := decodeByte_touches h1
    have t2 := ih (j + 1) hs
    rw [t1.outBase] at t2
    exact (t1.mono (Nat.le_refl _) (by omega)).trans (t2.mono (by omega) (by omega))

end

/-- The prologue succeeds exactly when none of its errors applies (41_stream_codec.md R100). -/
theorem streamCheck_eq_ok {dir : Direction} {s : State} {lay : Layout} {len : Nat} :
    streamCheck dir s = .ok (lay, len) ↔
      layoutOf s.channels = some lay ∧ len = outputLength dir s.inLen.toNat ∧
      ¬(dir = .enc ∧ s.inLen.toNat % 2 = 1) ∧ len ≤ s.outCap.toNat ∧
      s.inBase.toNat + s.inLen.toNat ≤ 2 ^ 32 ∧ s.outBase.toNat + len ≤ 2 ^ 32 ∧
      ¬(s.inLen.toNat > 0 ∧ len > 0 ∧ s.inBase.toNat < s.outBase.toNat + len ∧
        s.outBase.toNat < s.inBase.toNat + s.inLen.toNat) := by
  unfold streamCheck
  cases hl : layoutOf s.channels with
  | none => simp
  | some lay' =>
    simp only [rangeCheck, pastEnd, rangesMeet, Bool.or_eq_true, Bool.and_eq_true, decide_eq_true_eq]
    constructor
    · intro h
      split at h; · simp at h
      split at h; · simp at h
      split at h; · simp at h
      split at h; · simp at h
      obtain ⟨rfl, rfl⟩ := Prod.mk.inj (Except.ok.inj h)
      exact ⟨rfl, rfl, ‹_›, by omega, by omega, by omega, by omega⟩
    · rintro ⟨h, rfl, h1, h2, h3, h4, h5⟩
      rw [if_neg h1, if_neg (by omega), if_neg (by omega), if_neg (by omega), Option.some.inj h]

/-- Input and output of a successful stream command share no address (20_memory.md R49). -/
theorem ranges_disjoint {a la b lb : Nat} (h : ¬(la > 0 ∧ lb > 0 ∧ a < b + lb ∧ b < a + la)) {x : Nat}
    (hx : a ≤ x ∧ x < a + la) : ¬(b ≤ x ∧ x < b + lb) := by omega

/-- A failing prologue reports one of the codes 2 to 6 (60_exceptions.md R122). -/
theorem streamCheck_error_code {dir : Direction} {s : State} {e : CmdError} (h : streamCheck dir s = .error e) :
    e ≠ .illegal := by
  rintro rfl
  unfold streamCheck rangeCheck at h
  repeat' split at h
  all_goals simp at h

section
variable {s : State} {lay : Layout}

theorem busRead_ok (hf : s.memFault = []) (a : Nat) : busRead s a = .ok (s.mem.read a) := by
  simp [busRead, hf]

theorem busWrite_ok (hf : s.memFault = []) (a : Nat) (v : Byte) :
    busWrite s a v = .ok (s.setMem (s.mem.write a v)) := by
  simp [busWrite, hf]

theorem readSample_ok (hf : s.memFault = []) (i : Nat) : readSample s i = .ok (bufferSample s.mem s.inBase i) := by
  simp [readSample, busRead_ok hf, ok_bind, pure_ok, bufferSample]

theorem bufferSample_congr {m m' : Memory} {base : Word} {i : Nat}
    (h : ∀ a, base.toNat + 2 * i ≤ a ∧ a < base.toNat + 2 * i + 2 → m.read a = m'.read a) :
    bufferSample m base i = bufferSample m' base i := by
  unfold bufferSample sampleAddr
  rw [h _ (by omega), h _ (by omega)]

/-- A buffer's samples depend on its own bytes only. -/
theorem bufferSamples_congr {m m' : Memory} {base : Word} (n i : Nat)
    (h : ∀ a, base.toNat + 2 * i ≤ a ∧ a < base.toNat + 2 * (i + n) → m.read a = m'.read a) :
    bufferSamples m base i n = bufferSamples m' base i n := by
  induction n generalizing i with
  | zero => rfl
  | succ n ih =>
    rw [bufferSamples, bufferSamples, ih (i + 1) fun a ha => h a (by omega), bufferSample_congr fun a ha => h a (by omega)]

/-- A buffer's codes depend on its own bytes only. -/
theorem bufferCodes_congr {m m' : Memory} {base : Word} (n j : Nat)
    (h : ∀ a, base.toNat + j ≤ a ∧ a < base.toNat + j + n → m.read a = m'.read a) :
    bufferCodes m base j n = bufferCodes m' base j n := by
  induction n generalizing j with
  | zero => rfl
  | succ n ih =>
    rw [bufferCodes, bufferCodes, ih (j + 1) fun a ha => h a (by omega), h _ (by omega)]

@[simp] theorem bufferSamples_length (m : Memory) (base : Word) (n i : Nat) :
    (bufferSamples m base i n).length = n := by
  induction n generalizing i with
  | zero => rfl
  | succ n ih => simp [bufferSamples, ih]

@[simp] theorem bufferCodes_length (m : Memory) (base : Word) (n j : Nat) :
    (bufferCodes m base j n).length = 2 * n := by
  induction n generalizing j with
  | zero => rfl
  | succ n ih => simp [bufferCodes, ih]; omega

/-- Writing the low and the high byte of a sample stores it (20_memory.md R45). -/
theorem writeSample_ok (hf : s.memFault = []) (i : Nat) (p : BitVec 16) :
    ∃ m, writeSample s i p = .ok (s.setMem m) ∧
      (∀ a, ¬(s.outBase.toNat + 2 * i ≤ a ∧ a < s.outBase.toNat + 2 * i + 2) → m.read a = s.mem.read a) ∧
      (s.mem.wf = true → s.outBase.toNat + 2 * i + 2 ≤ 2 ^ 32 → m.wf = true ∧ bufferSample m s.outBase i = p.toInt) := by
  refine ⟨(s.mem.write (sampleAddr s.outBase i 0) (sampleLow p)).write (sampleAddr s.outBase i 1) (sampleHigh p),
    by rw [writeSample, busWrite_ok hf, ok_bind, busWrite_ok (by simpa using hf)]; rfl, fun a ha => ?_, fun hm hb => ?_⟩
  · simp only [sampleAddr]
    rw [Memory.read_write_other (by omega), Memory.read_write_other (by omega)]
  · have h1 := Memory.wf_write (a := sampleAddr s.outBase i 0) (v := sampleLow p) hm (by simp only [sampleAddr]; omega)
    refine ⟨Memory.wf_write h1 (by simp only [sampleAddr]; omega), ?_⟩
    rw [bufferSample, Memory.read_write_same h1, Memory.read_write_other (by simp only [sampleAddr]; omega),
      Memory.read_write_same hm, sampleOfBytes_stored]

theorem encodeRun_cons {t : StepTable} {r r' : ChannelRegs} {x : Int} {code : BitVec 4} {l : List Int}
    {run : List (BitVec 4 × ChannelRegs)} (h : encodeStep t r x = .ok (code, r')) (h' : encodeRun t r' l = .ok run) :
    encodeRun t r (x :: l) = .ok ((code, r') :: run) := by
  simp only [encodeRun, h, ok_bind, h']; rfl

theorem decodeRun_cons {t : StepTable} {r r' : ChannelRegs} {code : BitVec 4} {l : List (BitVec 4)}
    {run : List ChannelRegs} (h : decodeUpdate t r code = .ok r') (h' : decodeRun t r' l = .ok run) :
    decodeRun t r (code :: l) = .ok (r' :: run) := by
  rw [decodeRun, h, ok_bind, h']; rfl

theorem channelItems_pair {α : Type} (lay : Layout) (a b : α) (l : List α) :
    channelItems lay .ch0 (a :: b :: l) =
      (match lay with | .mono => a :: b :: channelItems lay .ch0 l | .stereo => a :: channelItems lay .ch0 l) ∧
    channelItems lay .ch1 (a :: b :: l) =
      (match lay with | .mono => channelItems lay .ch1 l | .stereo => b :: channelItems lay .ch1 l) := by
  cases lay
  · exact ⟨rfl, rfl⟩
  · refine ⟨rfl, ?_⟩
    cases l <;> rfl

/-- One byte of ENCODE from two samples. -/
theorem encodeByte_pair (hf : s.memFault = []) {n j : Nat} (hn : 2 * j + 1 < n) {ca cb : BitVec 4}
    {ra rb : ChannelRegs}
    (ha : encodeStep s.steps (s.chan (lay.channel .high)) (bufferSample s.mem s.inBase (2 * j)) = .ok (ca, ra))
    (hb : encodeStep s.steps ((s.setChan (lay.channel .high) ra).chan (lay.channel .low))
      (bufferSample s.mem s.inBase (2 * j + 1)) = .ok (cb, rb)) :
    encodeByte lay n j s =
      .ok (((s.setChan (lay.channel .high) ra).setChan (lay.channel .low) rb).setMem
        (s.mem.write (s.outBase.toNat + j) (ca ++ cb))) := by
  have h0 : sampleIndex j .high = 2 * j := rfl
  have h1 : sampleIndex j .low = 2 * j + 1 := rfl
  have hf' : (s.setChan (lay.channel .high) ra).memFault = [] := by simpa using hf
  simp only [encodeByte, encodeNibble, h0, h1, if_pos hn, if_pos (show 2 * j < n by omega), readSample_ok hf,
    readSample_ok hf', State.setChan_steps, State.setChan_mem, State.setChan_inBase, ok_bind, pure_ok, ha, hb]
  rw [busWrite_ok (by simpa using hf)]
  simp only [State.setChan_mem, State.setChan_outBase]
  exact congrArg (fun b => Except.ok (State.setMem _ (Memory.write _ _ b))) (place_place ca cb)

/-- The last byte of ENCODE when only one sample is left (41_stream_codec.md R105). -/
theorem encodeByte_single (hf : s.memFault = []) {n j : Nat} (hn : n = 2 * j + 1) {ca : BitVec 4}
    {ra : ChannelRegs}
    (ha : encodeStep s.steps (s.chan (lay.channel .high)) (bufferSample s.mem s.inBase (2 * j)) = .ok (ca, ra)) :
    encodeByte lay n j s =
      .ok ((s.setChan (lay.channel .high) ra).setMem (s.mem.write (s.outBase.toNat + j) (ca ++ 0#4))) := by
  have h0 : sampleIndex j .high = 2 * j := rfl
  have h1 : sampleIndex j .low = 2 * j + 1 := rfl
  simp only [encodeByte, encodeNibble, h0, h1, if_neg (show ¬2 * j + 1 < n by omega), if_pos (show 2 * j < n by omega),
    readSample_ok hf, ok_bind, pure_ok, ha]
  rw [busWrite_ok (by simpa using hf)]
  simp only [State.setChan_mem, State.setChan_outBase]
  exact congrArg (fun b => Except.ok (State.setMem _ (Memory.write _ _ b))) (place_high ca)

/-- From registers `r`, encoding the samples `xs` one after another gives the codes and ends at `r'`. -/
def EncodesTo (t : StepTable) (r r' : ChannelRegs) (xs : List Int) (codes : List (BitVec 4)) : Prop :=
  ∃ run, encodeRun t r xs = .ok run ∧ codes = run.map Prod.fst ∧ r' = (run.map Prod.snd).getLastD r

theorem EncodesTo.nil (t : StepTable) (r : ChannelRegs) : EncodesTo t r r [] [] := ⟨[], rfl, rfl, rfl⟩

theorem EncodesTo.cons {t : StepTable} {r r1 r' : ChannelRegs} {x : Int} {xs : List Int} {c : BitVec 4}
    {codes : List (BitVec 4)} (h : encodeStep t r x = .ok (c, r1)) (h' : EncodesTo t r1 r' xs codes) :
    EncodesTo t r r' (x :: xs) (c :: codes) := by
  obtain ⟨run, h1, rfl, rfl⟩ := h'
  exact ⟨_, encodeRun_cons h h1, rfl, by simp only [List.map_cons, List.getLastD_cons]⟩

/-- ENCODE's loop over the last `n` of its samples: it completes, and its output bytes and end state are those of the
channels' own runs. -/
theorem encodeBytes_run (total count : Nat) : ∀ (n j : Nat) (s : State), s.memFault = [] → s.mem.wf = true →
    s.ch0.inRange → s.ch1.inRange → total = 2 * j + n → count = (n + 1) / 2 → s.outBase.toNat + j + count ≤ 2 ^ 32 →
    (∀ a, s.inBase.toNat + 4 * j ≤ a ∧ a < s.inBase.toNat + 2 * total →
      ¬(s.outBase.toNat + j ≤ a ∧ a < s.outBase.toNat + j + count)) →
    ∃ s' codes, encodeBytes lay total j s count = .ok s' ∧ codes.length = n ∧
      (∀ k < count, s'.mem.read (s.outBase.toNat + j + k) = packedByte codes k) ∧
      EncodesTo s.steps s.ch0 s'.ch0 (channelItems lay .ch0 (bufferSamples s.mem s.inBase (2 * j) n))
        (channelItems lay .ch0 codes) ∧
      EncodesTo s.steps s.ch1 s'.ch1 (channelItems lay .ch1 (bufferSamples s.mem s.inBase (2 * j) n))
        (channelItems lay .ch1 codes) := by
  induction count with
  | zero =>
    intro n j s _ _ _ _ _ hn _ _
    obtain rfl : n = 0 := by omega
    refine ⟨s, [], rfl, rfl, fun k hk => absurd hk (by omega), ?_, ?_⟩ <;> cases lay <;> exact EncodesTo.nil _ _
  | succ count ih =>
    intro n j s hf hm h0 h1 htot hcnt hend hdis
    obtain ⟨ca, ra, ha, hra⟩ := encodeStep_ok (t := s.steps) (r := s.chan (lay.channel .high))
      (sample := bufferSample s.mem s.inBase (2 * j)) (by cases lay <;> exact h0)
    obtain rfl | ⟨n, rfl⟩ : n = 1 ∨ ∃ m, n = m + 2 := by
      rcases n with _ | _ | n
      · omega
      · exact .inl rfl
      · exact .inr ⟨n, rfl⟩
    · obtain rfl : count = 0 := by omega
      refine ⟨_, [ca], by rw [encodeBytes, encodeByte_single hf htot ha, ok_bind]; rfl, rfl, fun k hk => ?_, ?_, ?_⟩
      · obtain rfl : k = 0 := by omega
        exact Memory.read_write_same hm
      · cases lay <;> exact EncodesTo.cons ha (EncodesTo.nil _ _)
      · cases lay <;> exact EncodesTo.nil _ _
    · obtain ⟨cb, rb, hb, hrb⟩ := encodeStep_ok (t := s.steps)
        (r := (s.setChan (lay.channel .high) ra).chan (lay.channel .low))
        (sample := bufferSample s.mem s.inBase (2 * j + 1)) (by cases lay; exacts [hra, h1])
      have hbyte := encodeByte_pair (lay := lay) hf (n := total) (by omega) ha hb
      have hm1 : (s.mem.write (s.outBase.toNat + j) (ca ++ cb)).wf = true := Memory.wf_write hm (by omega)
      have hsame : bufferSamples (s.mem.write (s.outBase.toNat + j) (ca ++ cb)) s.inBase (2 * j + 2) n =
          bufferSamples s.mem s.inBase (2 * j + 2) n :=
        bufferSamples_congr _ _ fun a hin => Memory.read_write_other (by have := hdis a (by omega); omega)
      have hsplit : bufferSamples s.mem s.inBase (2 * j) (n + 2) =
          bufferSample s.mem s.inBase (2 * j) :: bufferSample s.mem s.inBase (2 * j + 1) ::
            bufferSamples s.mem s.inBase (2 * j + 2) n := rfl
      obtain ⟨s', codes, hs', hlen, hout, hr0, hr1⟩ := ih n (j + 1)
        (((s.setChan (lay.channel .high) ra).setChan (lay.channel .low) rb).setMem
          (s.mem.write (s.outBase.toNat + j) (ca ++ cb)))
        (by simpa using hf) hm1 (by cases lay; exacts [hrb, hra]) (by cases lay; exacts [h1, hrb])
        (by omega) (by omega) (by simp only [State.setMem_outBase, State.setChan_outBase]; omega)
        (by
          simp only [State.setMem_inBase, State.setMem_outBase, State.setChan_inBase, State.setChan_outBase]
          intro a hin; have := hdis a (by omega); omega)
      simp only [State.setMem_mem, State.setMem_inBase, State.setMem_outBase, State.setMem_steps, State.setMem_ch0,
        State.setMem_ch1, State.setChan_inBase, State.setChan_outBase, State.setChan_steps,
        show 2 * (j + 1) = 2 * j + 2 by omega, hsame] at hout hr0 hr1
      refine ⟨s', ca :: cb :: codes, by rw [encodeBytes, hbyte, ok_bind, hs'], by simp [hlen], fun k hk => ?_, ?_, ?_⟩
      · cases k with
        | zero =>
          obtain ⟨_, _, m, rfl, hread, -⟩ := encodeBytes_touches _ _ hs'
          exact (hread _ (by simp only [State.setMem_outBase, State.setChan_outBase]; omega)).trans
            (Memory.read_write_same hm)
        | succ k =>
          have := hout k (by omega)
          rwa [show s.outBase.toNat + (j + 1) + k = s.outBase.toNat + j + (k + 1) by omega] at this
      · rw [hsplit, (channelItems_pair lay _ _ _).1, (channelItems_pair lay _ _ _).1]
        cases lay
        · exact EncodesTo.cons ha (EncodesTo.cons hb hr0)
        · exact EncodesTo.cons ha hr0
      · rw [hsplit, (channelItems_pair lay _ _ _).2, (channelItems_pair lay _ _ _).2]
        cases lay
        · exact hr1
        · exact EncodesTo.cons hb hr1

/-- From registers `r`, decoding `codes` one after another gives the samples `preds` and ends at `r'`. -/
def DecodesTo (t : StepTable) (r r' : ChannelRegs) (codes : List (BitVec 4)) (preds : List (BitVec 16)) : Prop :=
  ∃ run, decodeRun t r codes = .ok run ∧ preds = run.map ChannelRegs.pred ∧ r' = run.getLastD r

theorem DecodesTo.nil (t : StepTable) (r : ChannelRegs) : DecodesTo t r r [] [] := ⟨[], rfl, rfl, rfl⟩

theorem DecodesTo.cons {t : StepTable} {r r1 r' : ChannelRegs} {c : BitVec 4} {codes : List (BitVec 4)}
    {preds : List (BitVec 16)} (h : decodeUpdate t r c = .ok r1) (h' : DecodesTo t r1 r' codes preds) :
    DecodesTo t r r' (c :: codes) (r1.pred :: preds) := by
  obtain ⟨run, h1, rfl, rfl⟩ := h'
  exact ⟨_, decodeRun_cons h h1, rfl, by simp only [List.getLastD_cons]⟩

/-- One byte of DECODE. -/
theorem decodeByte_pair (hf : s.memFault = []) {j : Nat} {ra rb : ChannelRegs}
    (ha : decodeUpdate s.steps (s.chan (lay.channel .high))
      (Nibble.high.extract (s.mem.read (s.inBase.toNat + j))) = .ok ra)
    (hb : decodeUpdate s.steps ((s.setChan (lay.channel .high) ra).chan (lay.channel .low))
      (Nibble.low.extract (s.mem.read (s.inBase.toNat + j))) = .ok rb) :
    ∃ m, decodeByte lay j s = .ok (((s.setChan (lay.channel .high) ra).setChan (lay.channel .low) rb).setMem m) ∧
      (∀ a, ¬(s.outBase.toNat + 4 * j ≤ a ∧ a < s.outBase.toNat + 4 * j + 4) → m.read a = s.mem.read a) ∧
      (s.mem.wf = true → s.outBase.toNat + 4 * j + 4 ≤ 2 ^ 32 → m.wf = true ∧
        bufferSample m s.outBase (2 * j) = ra.pred.toInt ∧ bufferSample m s.outBase (2 * j + 1) = rb.pred.toInt) := by
  have h0 : sampleIndex j .high = 2 * j := rfl
  have h1 : sampleIndex j .low = 2 * j + 1 := rfl
  obtain ⟨m1, hw1, hr1, hv1⟩ := writeSample_ok (s := s.setChan (lay.channel .high) ra) (by simpa using hf) (2 * j) ra.pred
  obtain ⟨m2, hw2, hr2, hv2⟩ := writeSample_ok
    (s := ((s.setChan (lay.channel .high) ra).setMem m1).setChan (lay.channel .low) rb) (by simpa using hf)
    (2 * j + 1) rb.pred
  simp only [State.setChan_outBase, State.setChan_mem, State.setMem_outBase, State.setMem_mem] at hr1 hv1 hr2 hv2
  refine ⟨m2, ?_, fun a ha => ?_, fun hm hend => ?_⟩
  · simp only [decodeByte, decodeNibble, busRead_ok hf, h0, h1, ok_bind, ha, hw1, State.setMem_steps,
      State.setChan_steps, State.chan_setMem, hb, hw2]
    rw [State.setChan_setMem, State.setMem_setMem]
  · rw [hr2 a (by omega), hr1 a (by omega)]
  · obtain ⟨hm1, hs1⟩ := hv1 hm (by omega)
    obtain ⟨hm2, hs2⟩ := hv2 hm1 (by omega)
    exact ⟨hm2, (bufferSample_congr fun a ha => hr2 a (by omega)).trans hs1, hs2⟩

/-- DECODE's loop over `count` bytes: it completes, and its output samples and end state are those of the channels' own
runs. -/
theorem decodeBytes_run (count : Nat) : ∀ (j : Nat) (s : State), s.memFault = [] → s.mem.wf = true →
    s.ch0.inRange → s.ch1.inRange → s.outBase.toNat + 4 * (j + count) ≤ 2 ^ 32 →
    (∀ a, s.inBase.toNat + j ≤ a ∧ a < s.inBase.toNat + j + count →
      ¬(s.outBase.toNat + 4 * j ≤ a ∧ a < s.outBase.toNat + 4 * (j + count))) →
    ∃ s' preds, decodeBytes lay j s count = .ok s' ∧ preds.length = 2 * count ∧
      bufferSamples s'.mem s.outBase (2 * j) (2 * count) = preds.map BitVec.toInt ∧
      DecodesTo s.steps s.ch0 s'.ch0 (channelItems lay .ch0 (bufferCodes s.mem s.inBase j count))
        (channelItems lay .ch0 preds) ∧
      DecodesTo s.steps s.ch1 s'.ch1 (channelItems lay .ch1 (bufferCodes s.mem s.inBase j count))
        (channelItems lay .ch1 preds) := by
  induction count with
  | zero =>
    intro j s _ _ _ _ _ _
    refine ⟨s, [], rfl, rfl, rfl, ?_, ?_⟩ <;> cases lay <;> exact DecodesTo.nil _ _
  | succ count ih =>
    intro j s hf hm h0 h1 hend hdis
    have ha := decodeUpdate_ok (t := s.steps) (r := s.chan (lay.channel .high))
      (code := Nibble.high.extract (s.mem.read (s.inBase.toNat + j))) (by cases lay <;> exact h0)
    have hra := decodeUpdate_inRange ha
    generalize updateWith _ _ _ = ra at ha hra
    have hb := decodeUpdate_ok (t := s.steps) (r := (s.setChan (lay.channel .high) ra).chan (lay.channel .low))
      (code := Nibble.low.extract (s.mem.read (s.inBase.toNat + j))) (by cases lay; exacts [hra, h1])
    have hrb := decodeUpdate_inRange hb
    generalize updateWith _ _ _ = rb at hb hrb
    obtain ⟨m, hbyte, hread, hwf⟩ := decodeByte_pair hf ha hb
    obtain ⟨hm1, hsa, hsb⟩ := hwf hm (by omega)
    have hsame : bufferCodes m s.inBase (j + 1) count = bufferCodes s.mem s.inBase (j + 1) count :=
      bufferCodes_congr _ _ fun a hin => hread a (by have := hdis a (by omega); omega)
    obtain ⟨s', preds, hs', hlen, hout, hr0, hr1⟩ := ih (j + 1)
      (((s.setChan (lay.channel .high) ra).setChan (lay.channel .low) rb).setMem m)
      (by simpa using hf) hm1 (by cases lay; exacts [hrb, hra]) (by cases lay; exacts [h1, hrb])
      (by simp only [State.setMem_outBase, State.setChan_outBase]; omega)
      (by
        simp only [State.setMem_inBase, State.setMem_outBase, State.setChan_inBase, State.setChan_outBase]
        intro a hin; have := hdis a (by omega); omega)
    simp only [State.setMem_mem, State.setMem_inBase, State.setMem_outBase, State.setMem_steps, State.setMem_ch0,
      State.setMem_ch1, State.setChan_inBase, State.setChan_outBase, State.setChan_steps, hsame] at hout hr0 hr1
    have hkeep : ∀ i, i < 2 → bufferSample s'.mem s.outBase (2 * j + i) = bufferSample m s.outBase (2 * j + i) := by
      obtain ⟨_, _, _, rfl, hr, -⟩ := decodeBytes_touches _ _ hs'
      intro i hi
      exact bufferSample_congr fun a ha => hr a (by simp only [State.setMem_outBase, State.setChan_outBase]; omega)
    refine ⟨s', ra.pred :: rb.pred :: preds, by rw [decodeBytes, hbyte, ok_bind, hs'],
      by simp only [List.length_cons, hlen]; omega, ?_, ?_, ?_⟩
    · have hk0 : bufferSample s'.mem s.outBase (2 * j) = ra.pred.toInt := (hkeep 0 (by omega)).trans hsa
      have hk1 : bufferSample s'.mem s.outBase (2 * j + 1) = rb.pred.toInt := (hkeep 1 (by omega)).trans hsb
      rw [show 2 * (count + 1) = 2 * count + 1 + 1 by omega, bufferSamples, bufferSamples,
        show 2 * j + 1 + 1 = 2 * (j + 1) by omega, hout, hk0, hk1, List.map_cons, List.map_cons]
    · rw [bufferCodes, (channelItems_pair lay _ _ _).1, (channelItems_pair lay _ _ _).1]
      cases lay
      · exact DecodesTo.cons ha (DecodesTo.cons hb hr0)
      · exact DecodesTo.cons ha hr0
    · rw [bufferCodes, (channelItems_pair lay _ _ _).2, (channelItems_pair lay _ _ _).2]
      cases lay
      · exact hr1
      · exact DecodesTo.cons hb hr1

end

end Sys2Proof.Machine
end

