-- ==== Sys2Proof/Laws/Exec.lean ====
section
/-! SUPPORT. What each command can answer: one inversion lemma per command, and the completion of the stream commands. -/

namespace Sys2Proof.Machine

section
variable {s t : State} {f : Fault}

/-- A command's body ends in a next state exactly when it meets no fault. -/
theorem finish_eq_next {r : Except Fault State} : finish r = .next t ↔ ∃ s', r = .ok s' ∧ t = s'.succeed := by
  cases r <;> simp [finish, eq_comm]

theorem finish_eq_fault {r : Except Fault State} : finish r = .fault f ↔ r = .error f := by
  cases r <;> simp [finish]

theorem finish_ne_refused {r : Except Fault State} {x : Refusal} : finish r ≠ .refused x := by
  cases r <;> simp [finish]

/-- DECSTEP's next state (40_channel_codec.md R86). -/
theorem execDecstep_eq_next {ch : Channel} {code : BitVec 4} (h : execDecstep ch code s = .next t) :
    ∃ r, decodeUpdate s.steps (s.chan ch) code = .ok r ∧
      t = ((s.setChan ch r).setResult (r.pred.setWidth 32)).succeed := by
  obtain ⟨s', h', rfl⟩ := finish_eq_next.mp h
  obtain ⟨r, hr, h'⟩ := bind_eq_ok.mp h'
  exact ⟨r, hr, by rw [Except.ok.inj h']⟩

/-- ENCSTEP's next state (R87). -/
theorem execEncstep_eq_next {ch : Channel} {x : Int} (h : execEncstep ch x s = .next t) :
    ∃ code r, encodeStep s.steps (s.chan ch) x = .ok (code, r) ∧
      t = ((s.setChan ch r).setResult (code.setWidth 32)).succeed := by
  obtain ⟨s', h', rfl⟩ := finish_eq_next.mp h
  obtain ⟨⟨code, r⟩, hr, h'⟩ := bind_eq_ok.mp h'
  exact ⟨code, r, hr, by rw [Except.ok.inj h']⟩

/-- A stream command's next state: the prologue's error, or a body that touched the channels and its own output range
(41_stream_codec.md R100, 20_memory.md R43). -/
theorem stream_eq_next {dir : Direction} (h : (match dir with | .enc => execEncode s | .dec => execDecode s) = .next t) :
    (∃ e, streamCheck dir s = .error e ∧ t = s.raise e) ∨
    (∃ lay len s', streamCheck dir s = .ok (lay, len) ∧
      Touches s.outBase.toNat (s.outBase.toNat + len) s.freshChannels s' ∧
      t = (s'.setOutLen (BitVec.ofNat 32 len)).succeed) := by
  cases dir with
  | enc =>
    simp only [execEncode] at h
    split at h
    · rename_i e he
      exact .inl ⟨e, he, by simpa [eq_comm] using h⟩
    · rename_i lay len hok
      obtain ⟨s1, h', rfl⟩ := finish_eq_next.mp h
      obtain ⟨s', hs', h'⟩ := bind_eq_ok.mp h'
      exact .inr ⟨lay, len, s', hok, by simpa using encodeBytes_touches _ _ hs', by rw [← Except.ok.inj h']⟩
  | dec =>
    simp only [execDecode] at h
    split at h
    · rename_i e he
      exact .inl ⟨e, he, by simpa [eq_comm] using h⟩
    · rename_i lay len hok
      obtain ⟨s1, h', rfl⟩ := finish_eq_next.mp h
      obtain ⟨s', hs', h'⟩ := bind_eq_ok.mp h'
      obtain ⟨-, rfl, -⟩ := streamCheck_eq_ok.mp hok
      exact .inr ⟨lay, _, s', hok, by simpa [outputLength] using decodeBytes_touches _ _ hs', by rw [← Except.ok.inj h']⟩

/-- Everything a command can answer as a next state. -/
theorem exec_eq_next {i : Instr} (h : exec i s = .next t) :
    (i = .nop ∧ t = s.succeed) ∨
    (∃ c, i = .chreset c ∧ t = (s.setChan c ChannelRegs.initial).succeed) ∨
    (∃ c code r, i = .decstep c code ∧ decodeUpdate s.steps (s.chan c) code = .ok r ∧
      t = ((s.setChan c r).setResult (r.pred.setWidth 32)).succeed) ∨
    (∃ c x code r, i = .encstep c x ∧ encodeStep s.steps (s.chan c) x = .ok (code, r) ∧
      t = ((s.setChan c r).setResult (code.setWidth 32)).succeed) ∨
    (∃ dir : Direction, i = (match dir with | .enc => .encode | .dec => .decode) ∧
      ((∃ e, streamCheck dir s = .error e ∧ t = s.raise e) ∨
        ∃ lay len s', streamCheck dir s = .ok (lay, len) ∧
          Touches s.outBase.toNat (s.outBase.toNat + len) s.freshChannels s' ∧
          t = (s'.setOutLen (BitVec.ofNat 32 len)).succeed)) := by
  cases i with
  | nop => exact .inl ⟨rfl, by simpa [exec, execNop, eq_comm] using h⟩
  | chreset c => exact .inr (.inl ⟨c, rfl, by simpa [exec, execChreset, eq_comm] using h⟩)
  | decstep c code =>
    obtain ⟨r, h1, h2⟩ := execDecstep_eq_next h
    exact .inr (.inr (.inl ⟨c, code, r, rfl, h1, h2⟩))
  | encstep c x =>
    obtain ⟨code, r, h1, h2⟩ := execEncstep_eq_next h
    exact .inr (.inr (.inr (.inl ⟨c, x, code, r, rfl, h1, h2⟩)))
  | encode => exact .inr (.inr (.inr (.inr ⟨.enc, rfl, stream_eq_next (dir := .enc) h⟩)))
  | decode => exact .inr (.inr (.inr (.inr ⟨.dec, rfl, stream_eq_next (dir := .dec) h⟩)))

/-- ENCODE past a successful prologue completes: its output bytes are the packed codes of the channels' own runs over the
input samples (41_stream_codec.md R101 to R105). -/
theorem execEncode_ok {lay : Layout} {len : Nat} (hf : s.memFault = []) (hm : s.mem.wf = true)
    (h : streamCheck .enc s = .ok (lay, len)) :
    ∃ s' codes, execEncode s = .next (s'.setOutLen (BitVec.ofNat 32 len)).succeed ∧
      Touches s.outBase.toNat (s.outBase.toNat + len) s.freshChannels s' ∧ codes.length = s.inLen.toNat / 2 ∧
      (∀ k < len, s'.mem.read (s.outBase.toNat + k) = packedByte codes k) ∧
      ∀ c, EncodesTo s.steps ChannelRegs.initial (s'.chan c)
        (channelItems lay c (bufferSamples s.mem s.inBase 0 (s.inLen.toNat / 2))) (channelItems lay c codes) := by
  obtain ⟨-, hlen, heven, -, -, hend, hdis⟩ := streamCheck_eq_ok.mp h
  simp only [outputLength, true_and] at hlen heven
  obtain ⟨s', codes, hs', h1, h2, h3, h4⟩ := encodeBytes_run (lay := lay) (s.inLen.toNat / 2) len (s.inLen.toNat / 2) 0
    s.freshChannels (by simpa using hf) (by simpa using hm) initial_inRange initial_inRange (by omega) (by omega)
    (by simpa using hend) (by
      simp only [State.freshChannels_inBase, State.freshChannels_outBase]
      intro a ha
      have := ranges_disjoint hdis (x := a) (by omega)
      omega)
  refine ⟨s', codes, ?_, by simpa using encodeBytes_touches _ _ hs', h1, by simpa using h2, fun c => ?_⟩
  · simp only [execEncode, h, hs', ok_bind]
    rfl
  · cases c
    · simpa using h3
    · simpa using h4

/-- DECODE past a successful prologue completes: its output samples are those of the channels' own runs over the input codes
(R101, R102, R107). -/
theorem execDecode_ok {lay : Layout} {len : Nat} (hf : s.memFault = []) (hm : s.mem.wf = true)
    (h : streamCheck .dec s = .ok (lay, len)) :
    ∃ s' preds, execDecode s = .next (s'.setOutLen (BitVec.ofNat 32 len)).succeed ∧
      Touches s.outBase.toNat (s.outBase.toNat + len) s.freshChannels s' ∧ preds.length = 2 * s.inLen.toNat ∧
      bufferSamples s'.mem s.outBase 0 (2 * s.inLen.toNat) = preds.map BitVec.toInt ∧
      ∀ c, DecodesTo s.steps ChannelRegs.initial (s'.chan c)
        (channelItems lay c (bufferCodes s.mem s.inBase 0 s.inLen.toNat)) (channelItems lay c preds) := by
  obtain ⟨-, hlen, -, -, -, hend, hdis⟩ := streamCheck_eq_ok.mp h
  simp only [outputLength] at hlen
  obtain ⟨s', preds, hs', h1, h2, h3, h4⟩ := decodeBytes_run (lay := lay) s.inLen.toNat 0
    s.freshChannels (by simpa using hf) (by simpa using hm) initial_inRange initial_inRange
    (by simp only [State.freshChannels_outBase]; omega) (by
      simp only [State.freshChannels_inBase, State.freshChannels_outBase]
      intro a ha
      have := ranges_disjoint hdis (x := a) (by omega)
      omega)
  refine ⟨s', preds, ?_, by simpa [hlen] using decodeBytes_touches _ _ hs', h1, by simpa using h2, fun c => ?_⟩
  · simp only [execDecode, h, hs', ok_bind]
    rfl
  · cases c
    · simpa using h3
    · simpa using h4

end

end Sys2Proof.Machine
end

