-- ==== Sys2Proof/Laws/Faults.lean ====
section
/-! SUPPORT. Where a stream command faults: its loops access every byte of their ranges, and a failing byte is the only
thing that can stop them; a failing byte elsewhere changes nothing. -/

namespace Sys2Proof.Machine

section
variable {s s' : State} {f : Fault} {lay : Layout} {a i j n : Nat} {v acc acc' b : Byte} {h : Nibble} {p : BitVec 16}
  {x : Int}

theorem busRead_ok_notMem (hs : busRead s a = .ok v) : a ∉ s.memFault := by
  intro hm
  simp [busRead, hm] at hs

theorem busWrite_ok_notMem (hs : busWrite s a v = .ok s') : a ∉ s.memFault := by
  intro hm
  simp [busWrite, hm] at hs

theorem busRead_error (hs : busRead s a = .error f) : f = .bufferAccess := by
  unfold busRead at hs
  split at hs
  · exact (Except.error.inj hs).symm
  · simp at hs

theorem busWrite_error (hs : busWrite s a v = .error f) : f = .bufferAccess := by
  unfold busWrite at hs
  split at hs
  · exact (Except.error.inj hs).symm
  · simp at hs

theorem readSample_ok_notMem (hs : readSample s i = .ok x) :
    s.inBase.toNat + 2 * i ∉ s.memFault ∧ s.inBase.toNat + 2 * i + 1 ∉ s.memFault := by
  obtain ⟨_, h1, hs⟩ := bind_eq_ok.mp hs
  obtain ⟨_, h2, hs⟩ := bind_eq_ok.mp hs
  exact ⟨busRead_ok_notMem h1, busRead_ok_notMem h2⟩

theorem readSample_error (hs : readSample s i = .error f) : f = .bufferAccess := by
  rcases bind_eq_error.mp hs with hs | ⟨_, _, hs⟩
  · exact busRead_error hs
  rcases bind_eq_error.mp hs with hs | ⟨_, _, hs⟩
  · exact busRead_error hs
  · simp [pure_ok] at hs

theorem writeSample_ok_notMem (hs : writeSample s i p = .ok s') :
    s.outBase.toNat + 2 * i ∉ s.memFault ∧ s.outBase.toNat + 2 * i + 1 ∉ s.memFault := by
  obtain ⟨s1, h1, hs⟩ := bind_eq_ok.mp hs
  have h2 := busWrite_ok_notMem hs
  obtain ⟨_, _, _, rfl, -⟩ := busWrite_touches h1
  exact ⟨busWrite_ok_notMem h1, h2⟩

theorem writeSample_error (hs : writeSample s i p = .error f) : f = .bufferAccess := by
  rcases bind_eq_error.mp hs with hs | ⟨_, _, hs⟩ <;> exact busWrite_error hs

/-- Both step indices in range (10_state.md R14): no lookup faults. -/
def ChannelsInRange (s : State) : Prop := s.ch0.inRange ∧ s.ch1.inRange

theorem ChannelsInRange.chan (hg : ChannelsInRange s) (c : Channel) : (s.chan c).inRange := by
  cases c
  · exact hg.1
  · exact hg.2

theorem Touches.channelsInRange {lo hi : Nat} (ht : Touches lo hi s s') (hg : ChannelsInRange s) : ChannelsInRange s' := by
  obtain ⟨_, _, _, rfl, -, -, h0, h1⟩ := ht
  exact ⟨h0 hg.1, h1 hg.2⟩

theorem Touches.memFault {lo hi : Nat} (ht : Touches lo hi s s') : s'.memFault = s.memFault := by
  obtain ⟨_, _, _, rfl, -⟩ := ht; rfl

theorem Touches.inBase {lo hi : Nat} (ht : Touches lo hi s s') : s'.inBase = s.inBase := by
  obtain ⟨_, _, _, rfl, -⟩ := ht; rfl

theorem encodeNibble_ok_notMem (hs : encodeNibble lay n j h acc s = .ok (acc', s')) (hn : sampleIndex j h < n) :
    s.inBase.toNat + 2 * sampleIndex j h ∉ s.memFault ∧ s.inBase.toNat + 2 * sampleIndex j h + 1 ∉ s.memFault := by
  rw [encodeNibble, if_pos hn] at hs
  obtain ⟨_, h1, _⟩ := bind_eq_ok.mp hs
  exact readSample_ok_notMem h1

theorem encodeNibble_error (hg : ChannelsInRange s) (hs : encodeNibble lay n j h acc s = .error f) :
    f = .bufferAccess := by
  unfold encodeNibble at hs
  split at hs
  · rcases bind_eq_error.mp hs with hs | ⟨x, _, hs⟩
    · exact readSample_error hs
    · obtain ⟨_, _, hr, -⟩ := encodeStep_ok (t := s.steps) (sample := x) (hg.chan (lay.channel h))
      simp [hr, ok_bind, pure_ok] at hs
  · simp [pure_ok] at hs

theorem encodeByte_ok_notMem (hs : encodeByte lay n j s = .ok s') :
    s.outBase.toNat + j ∉ s.memFault ∧ ∀ i, 2 * j ≤ i → i < 2 * j + 2 → i < n →
      s.inBase.toNat + 2 * i ∉ s.memFault ∧ s.inBase.toNat + 2 * i + 1 ∉ s.memFault := by
  obtain ⟨⟨_, s1⟩, h1, hs⟩ := bind_eq_ok.mp hs
  obtain ⟨⟨_, s2⟩, h2, hs⟩ := bind_eq_ok.mp hs
  have t1 := encodeNibble_touches (lo := 0) (hi := 0) h1
  have t2 := t1.trans (encodeNibble_touches h2)
  refine ⟨?_, fun i h3 h4 h5 => ?_⟩
  · have := busWrite_ok_notMem hs
    rwa [t2.outBase, t2.memFault] at this
  · obtain rfl | rfl : i = 2 * j ∨ i = 2 * j + 1 := by omega
    · exact encodeNibble_ok_notMem h1 h5
    · have := encodeNibble_ok_notMem h2 h5
      rwa [t1.inBase, t1.memFault] at this

theorem encodeByte_error (hg : ChannelsInRange s) (hs : encodeByte lay n j s = .error f) : f = .bufferAccess := by
  rcases bind_eq_error.mp hs with hs | ⟨⟨_, s1⟩, h1, hs⟩
  · exact encodeNibble_error hg hs
  rcases bind_eq_error.mp hs with hs | ⟨_, _, hs⟩
  · exact encodeNibble_error ((encodeNibble_touches (lo := 0) (hi := 0) h1).channelsInRange hg) hs
  · exact busWrite_error hs

/-- ENCODE's loop, when it ends without a fault, met no failing byte: neither among its output bytes nor among the bytes of
its samples. -/
theorem encodeBytes_ok_notMem (count : Nat) : ∀ {j : Nat} {s s' : State}, encodeBytes lay n j s count = .ok s' →
    (∀ k < count, s.outBase.toNat + j + k ∉ s.memFault) ∧ ∀ i, 2 * j ≤ i → i < 2 * (j + count) → i < n →
      s.inBase.toNat + 2 * i ∉ s.memFault ∧ s.inBase.toNat + 2 * i + 1 ∉ s.memFault := by
  induction count with
  | zero => intro j s s' _; exact ⟨fun k hk => by omega, fun i h1 h2 => by omega⟩
  | succ c ih =>
    intro j s s' hs
    obtain ⟨s1, h1, hs⟩ := bind_eq_ok.mp hs
    have t1 := encodeByte_touches h1
    obtain ⟨ho, hi⟩ := encodeByte_ok_notMem h1
    obtain ⟨ho', hi'⟩ := ih hs
    simp only [t1.outBase, t1.memFault, t1.inBase] at ho' hi'
    refine ⟨fun k hk => ?_, fun i h3 h4 h5 => ?_⟩
    · rcases k with _ | k
      · exact ho
      · have := ho' k (by omega)
        rwa [show s.outBase.toNat + (j + 1) + k = s.outBase.toNat + j + (k + 1) by omega] at this
    · rcases Nat.lt_or_ge i (2 * j + 2) with hlt | hge
      · exact hi i h3 hlt h5
      · exact hi' i (by omega) (by omega) h5

/-- The only fault of ENCODE's loop is a failing byte. -/
theorem encodeBytes_error (count : Nat) : ∀ {j : Nat} {s : State}, ChannelsInRange s →
    encodeBytes lay n j s count = .error f → f = .bufferAccess := by
  induction count with
  | zero => intro j s _ hs; simp [encodeBytes, pure_ok] at hs
  | succ c ih =>
    intro j s hg hs
    rcases bind_eq_error.mp hs with hs | ⟨s1, h1, hs⟩
    · exact encodeByte_error hg hs
    · exact ih ((encodeByte_touches h1).channelsInRange hg) hs

theorem decodeNibble_ok_notMem (hs : decodeNibble lay j h b s = .ok s') :
    s.outBase.toNat + 2 * sampleIndex j h ∉ s.memFault ∧ s.outBase.toNat + 2 * sampleIndex j h + 1 ∉ s.memFault := by
  obtain ⟨r, _, hs⟩ := bind_eq_ok.mp hs
  simpa using writeSample_ok_notMem hs

theorem decodeNibble_error (hg : ChannelsInRange s) (hs : decodeNibble lay j h b s = .error f) : f = .bufferAccess := by
  rcases bind_eq_error.mp hs with hs | ⟨_, _, hs⟩
  · rw [decodeUpdate_ok (hg.chan _)] at hs
    simp at hs
  · exact writeSample_error hs

theorem decodeByte_ok_notMem (hs : decodeByte lay j s = .ok s') :
    s.inBase.toNat + j ∉ s.memFault ∧ ∀ k < 4, s.outBase.toNat + 4 * j + k ∉ s.memFault := by
  obtain ⟨_, h0, hs⟩ := bind_eq_ok.mp hs
  obtain ⟨s1, h1, hs⟩ := bind_eq_ok.mp hs
  have t1 := decodeNibble_touches h1
  have hhi := decodeNibble_ok_notMem h1
  have hlo := decodeNibble_ok_notMem hs
  rw [t1.outBase, t1.memFault] at hlo
  simp only [sampleIndex, Nibble.index] at hhi hlo
  refine ⟨busRead_ok_notMem h0, fun k hk => ?_⟩
  obtain rfl | rfl | rfl | rfl : k = 0 ∨ k = 1 ∨ k = 2 ∨ k = 3 := by omega
  · have := hhi.1
    rwa [show s.outBase.toNat + 2 * (2 * j + 0) = s.outBase.toNat + 4 * j + 0 by omega] at this
  · have := hhi.2
    rwa [show s.outBase.toNat + 2 * (2 * j + 0) + 1 = s.outBase.toNat + 4 * j + 1 by omega] at this
  · have := hlo.1
    rwa [show s.outBase.toNat + 2 * (2 * j + 1) = s.outBase.toNat + 4 * j + 2 by omega] at this
  · have := hlo.2
    rwa [show s.outBase.toNat + 2 * (2 * j + 1) + 1 = s.outBase.toNat + 4 * j + 3 by omega] at this

theorem decodeByte_error (hg : ChannelsInRange s) (hs : decodeByte lay j s = .error f) : f = .bufferAccess := by
  rcases bind_eq_error.mp hs with hs | ⟨_, _, hs⟩
  · exact busRead_error hs
  rcases bind_eq_error.mp hs with hs | ⟨s1, h1, hs⟩
  · exact decodeNibble_error hg hs
  · exact decodeNibble_error ((decodeNibble_touches h1).channelsInRange hg) hs

/-- DECODE's loop, when it ends without a fault, met no failing byte in its two ranges. -/
theorem decodeBytes_ok_notMem (count : Nat) : ∀ {j : Nat} {s s' : State}, decodeBytes lay j s count = .ok s' →
    (∀ k < count, s.inBase.toNat + j + k ∉ s.memFault) ∧
      ∀ k < 4 * count, s.outBase.toNat + 4 * j + k ∉ s.memFault := by
  induction count with
  | zero => intro j s s' _; exact ⟨fun k hk => by omega, fun k hk => by omega⟩
  | succ c ih =>
    intro j s s' hs
    obtain ⟨s1, h1, hs⟩ := bind_eq_ok.mp hs
    have t1 := decodeByte_touches h1
    obtain ⟨hi, ho⟩ := decodeByte_ok_notMem h1
    obtain ⟨hi', ho'⟩ := ih hs
    simp only [t1.outBase, t1.memFault, t1.inBase] at ho' hi'
    refine ⟨fun k hk => ?_, fun k hk => ?_⟩
    · rcases k with _ | k
      · exact hi
      · have := hi' k (by omega)
        rwa [show s.inBase.toNat + (j + 1) + k = s.inBase.toNat + j + (k + 1) by omega] at this
    · rcases Nat.lt_or_ge k 4 with hlt | hge
      · exact ho k hlt
      · have := ho' (k - 4) (by omega)
        rwa [show s.outBase.toNat + 4 * (j + 1) + (k - 4) = s.outBase.toNat + 4 * j + k by omega] at this

/-- The only fault of DECODE's loop is a failing byte. -/
theorem decodeBytes_error (count : Nat) : ∀ {j : Nat} {s : State}, ChannelsInRange s →
    decodeBytes lay j s count = .error f → f = .bufferAccess := by
  induction count with
  | zero => intro j s _ hs; simp [decodeBytes, pure_ok] at hs
  | succ c ih =>
    intro j s hg hs
    rcases bind_eq_error.mp hs with hs | ⟨s1, h1, hs⟩
    · exact decodeByte_error hg hs
    · exact ih ((decodeByte_touches h1).channelsInRange hg) hs

variable {mf : List Nat}

/-- The state with another set of failing addresses. -/
def State.failingAt (s : State) (mf : List Nat) : State := { s with memFault := mf }

theorem busRead_failingAt (hs : busRead s a = .ok v) (ha : a ∉ mf) : busRead (s.failingAt mf) a = .ok v := by
  rw [busRead, if_neg (busRead_ok_notMem hs)] at hs
  rw [busRead, if_neg (by exact ha)]
  exact hs

theorem busWrite_failingAt (hs : busWrite s a v = .ok s') (ha : a ∉ mf) :
    busWrite (s.failingAt mf) a v = .ok (s'.failingAt mf) := by
  rw [busWrite, if_neg (busWrite_ok_notMem hs)] at hs
  rw [busWrite, if_neg (by exact ha), ← Except.ok.inj hs]
  rfl

theorem encodeNibble_failingAt (hs : encodeNibble lay n j h acc s = .ok (acc', s'))
    (hin : sampleIndex j h < n → sampleAddr s.inBase (sampleIndex j h) 0 ∉ mf ∧ sampleAddr s.inBase (sampleIndex j h) 1 ∉ mf) :
    encodeNibble lay n j h acc (s.failingAt mf) = .ok (acc', s'.failingAt mf) := by
  unfold encodeNibble at hs ⊢
  split at hs
  · rename_i hn
    obtain ⟨x, hx, hs⟩ := bind_eq_ok.mp hs
    obtain ⟨lo, h1, hx⟩ := bind_eq_ok.mp hx
    obtain ⟨hi, h2, hx⟩ := bind_eq_ok.mp hx
    obtain ⟨⟨code, r⟩, hr, hs⟩ := bind_eq_ok.mp hs
    obtain ⟨rfl, rfl⟩ := Prod.mk.inj (Except.ok.inj hs)
    have hread : readSample (s.failingAt mf) (sampleIndex j h) = .ok x := by
      rw [readSample, show (s.failingAt mf).inBase = s.inBase from rfl, busRead_failingAt h1 (hin hn).1, ok_bind,
        busRead_failingAt h2 (hin hn).2, ok_bind]
      exact hx
    have hchan : (s.failingAt mf).chan (lay.channel h) = s.chan (lay.channel h) := by cases lay.channel h <;> rfl
    rw [if_pos hn, hread, ok_bind, hchan, show (s.failingAt mf).steps = s.steps from rfl, hr, ok_bind]
    cases lay.channel h <;> rfl
  · obtain ⟨rfl, rfl⟩ := Prod.mk.inj (Except.ok.inj hs)
    rw [if_neg ‹_›]
    rfl

/-- A success of ENCODE's loop stays one, with the same effect, under failing addresses it does not access. -/
theorem encodeBytes_failingAt (count : Nat) : ∀ {j : Nat} {s s' : State}, encodeBytes lay n j s count = .ok s' →
    (∀ k < count, s.outBase.toNat + j + k ∉ mf) →
    (∀ i, 2 * j ≤ i → i < n → s.inBase.toNat + 2 * i ∉ mf ∧ s.inBase.toNat + 2 * i + 1 ∉ mf) →
    encodeBytes lay n j (s.failingAt mf) count = .ok (s'.failingAt mf) := by
  induction count with
  | zero => intro j s s' hs _ _; obtain rfl := Except.ok.inj hs; rfl
  | succ c ih =>
    intro j s s' hs hout hin
    obtain ⟨s1, hbyte, hs⟩ := bind_eq_ok.mp hs
    have t := encodeByte_touches hbyte
    have hrest := ih hs (fun k hk => by
        have := hout (k + 1) (by omega)
        rwa [t.outBase, show s.outBase.toNat + (j + 1) + k = s.outBase.toNat + j + (k + 1) by omega])
      (fun i h1 h2 => by rw [t.inBase]; exact hin i (by omega) h2)
    have hb : encodeByte lay n j (s.failingAt mf) = .ok (s1.failingAt mf) := by
      obtain ⟨⟨acc, sa⟩, h1, hbyte⟩ := bind_eq_ok.mp hbyte
      obtain ⟨⟨acc', sb⟩, h2, h3⟩ := bind_eq_ok.mp hbyte
      have ta := encodeNibble_touches (lo := 0) (hi := 0) h1
      have tb := ta.trans (encodeNibble_touches h2)
      rw [encodeByte, encodeNibble_failingAt h1 (fun hn => hin _ (by simp only [sampleIndex]; omega) hn), ok_bind]
      simp only []
      rw [encodeNibble_failingAt h2 (fun hn => by
        rw [ta.inBase]; exact hin _ (by simp only [sampleIndex]; omega) hn), ok_bind]
      exact busWrite_failingAt h3 (by have := hout 0 (by omega); rw [← tb.outBase] at this; exact this)
    rw [encodeBytes, hb, ok_bind, hrest]

theorem decodeNibble_failingAt (hs : decodeNibble lay j h b s = .ok s')
    (hout : sampleAddr s.outBase (sampleIndex j h) 0 ∉ mf ∧ sampleAddr s.outBase (sampleIndex j h) 1 ∉ mf) :
    decodeNibble lay j h b (s.failingAt mf) = .ok (s'.failingAt mf) := by
  obtain ⟨r, hr, hs⟩ := bind_eq_ok.mp hs
  obtain ⟨s1, h1, h2⟩ := bind_eq_ok.mp hs
  have hchan : (s.failingAt mf).chan (lay.channel h) = s.chan (lay.channel h) := by cases lay.channel h <;> rfl
  have hset : (s.failingAt mf).setChan (lay.channel h) r = (s.setChan (lay.channel h) r).failingAt mf := by
    cases lay.channel h <;> rfl
  have t1 := busWrite_touches h1
  rw [decodeNibble, hchan, show (s.failingAt mf).steps = s.steps from rfl, hr, ok_bind, hset, writeSample,
    show ((s.setChan (lay.channel h) r).failingAt mf).outBase = (s.setChan (lay.channel h) r).outBase from rfl,
    busWrite_failingAt h1 (by simpa using hout.1), ok_bind]
  exact busWrite_failingAt h2 (by
    rw [show (s1.failingAt mf).outBase = s.outBase from t1.outBase.trans (by simp)]; exact hout.2)

/-- A success of DECODE's loop stays one, with the same effect, under failing addresses it does not access. -/
theorem decodeBytes_failingAt (count : Nat) : ∀ {j : Nat} {s s' : State}, decodeBytes lay j s count = .ok s' →
    (∀ k < count, s.inBase.toNat + j + k ∉ mf) → (∀ k < 4 * count, s.outBase.toNat + 4 * j + k ∉ mf) →
    decodeBytes lay j (s.failingAt mf) count = .ok (s'.failingAt mf) := by
  induction count with
  | zero => intro j s s' hs _ _; obtain rfl := Except.ok.inj hs; rfl
  | succ c ih =>
    intro j s s' hs hin hout
    obtain ⟨s1, hbyte, hs⟩ := bind_eq_ok.mp hs
    have t := decodeByte_touches hbyte
    have hrest := ih hs (fun k hk => by
        have := hin (k + 1) (by omega)
        rwa [t.inBase, show s.inBase.toNat + (j + 1) + k = s.inBase.toNat + j + (k + 1) by omega])
      (fun k hk => by
        have := hout (k + 4) (by omega)
        rwa [t.outBase, show s.outBase.toNat + 4 * (j + 1) + k = s.outBase.toNat + 4 * j + (k + 4) by omega])
    have hb : decodeByte lay j (s.failingAt mf) = .ok (s1.failingAt mf) := by
      obtain ⟨b, h0, hbyte⟩ := bind_eq_ok.mp hbyte
      obtain ⟨sa, h1, h2⟩ := bind_eq_ok.mp hbyte
      have ta := decodeNibble_touches h1
      have free : ∀ h : Nibble, sampleAddr s.outBase (sampleIndex j h) 0 ∉ mf ∧
          sampleAddr s.outBase (sampleIndex j h) 1 ∉ mf := by
        intro h
        have e := fun d (hd : d < 2) => hout (2 * h.index + d) (by cases h <;> simp only [Nibble.index] <;> omega)
        have e0 := e 0 (by omega)
        have e1 := e 1 (by omega)
        simp only [sampleAddr, sampleIndex]
        exact ⟨by rwa [show s.outBase.toNat + 2 * (2 * j + h.index) + 0 = s.outBase.toNat + 4 * j + (2 * h.index + 0) by omega],
          by rwa [show s.outBase.toNat + 2 * (2 * j + h.index) + 1 = s.outBase.toNat + 4 * j + (2 * h.index + 1) by omega]⟩
      rw [decodeByte, show (s.failingAt mf).inBase = s.inBase from rfl, busRead_failingAt h0 (hin 0 (by omega)), ok_bind,
        decodeNibble_failingAt h1 (free _), ok_bind]
      exact decodeNibble_failingAt h2 (by rw [ta.outBase]; exact free _)
    rw [decodeBytes, hb, ok_bind, hrest]

end

end Sys2Proof.Machine
end

