-- ==== Sys2Proof/Laws/PerInstr.lean ====
section
/-! SUPPORT. One lemma per constructor: a command's word carries its row's fixed bits. -/

namespace Sys2Proof.Laws.FixedBits

/-- The mask and the match word of the command's row in the opcode table (30_encoding.md R67). -/
def row : Instr → Word × Word
  | .nop => (0xFFFFFFFF, 0x00000000)
  | .chreset _ => (0xFEFFFFFF, 0x10000000)
  | .decstep _ _ => (0xFEFFFFF0, 0x20000000)
  | .encstep _ _ => (0xFEFF0000, 0x30000000)
  | .encode => (0xFFFFFFFF, 0x40000000)
  | .decode => (0xFFFFFFFF, 0x50000000)

/-- The word of `i` has the value of every fixed bit of its row (R67). -/
def Statement (i : Instr) : Prop := encode i &&& (row i).1 = (row i).2

theorem nop : Statement .nop := by unfold Statement; decide

theorem chreset (ch : Channel) : Statement (.chreset ch) := by cases ch <;> (unfold Statement; decide)

theorem decstep (ch : Channel) (code : BitVec 4) : Statement (.decstep ch code) := by
  cases ch <;> (revert code; unfold Statement; decide)

theorem encstep (ch : Channel) (sample : Int) : Statement (.encstep ch sample) := by
  unfold Statement encode row
  generalize BitVec.ofInt 16 sample = data
  refine BitVec.eq_of_getLsbD_eq fun n hn => ?_
  simp only [commandWord, BitVec.getLsbD_and, BitVec.getLsbD_append]
  cases ch <;> interval_cases n <;> simp [channelBit]

theorem encode : Statement .encode := by unfold Statement; decide

theorem decode : Statement .decode := by unfold Statement; decide

end Sys2Proof.Laws.FixedBits
end

