-- ==== Sys2Proof/Laws/Runs.lean ====
section
/-! SUPPORT. A channel's run is a function of its input; the share of a channel in a list; buffers read as lists. -/

namespace Sys2Proof.Machine

section
variable {t : StepTable} {r r1 r2 : ChannelRegs}

/-- An encoding run is determined by its samples. -/
theorem EncodesTo.unique {xs : List Int} {c1 c2 : List (BitVec 4)} (h1 : EncodesTo t r r1 xs c1)
    (h2 : EncodesTo t r r2 xs c2) : r1 = r2 ∧ c1 = c2 := by
  obtain ⟨a, ha, rfl, rfl⟩ := h1
  obtain ⟨b, hb, rfl, rfl⟩ := h2
  obtain rfl : a = b := Except.ok.inj (ha.symm.trans hb)
  exact ⟨rfl, rfl⟩

/-- A decoding run is determined by its codes. -/
theorem DecodesTo.unique {codes : List (BitVec 4)} {p1 p2 : List (BitVec 16)} (h1 : DecodesTo t r r1 codes p1)
    (h2 : DecodesTo t r r2 codes p2) : r1 = r2 ∧ p1 = p2 := by
  obtain ⟨a, ha, rfl, rfl⟩ := h1
  obtain ⟨b, hb, rfl, rfl⟩ := h2
  obtain rfl : a = b := Except.ok.inj (ha.symm.trans hb)
  exact ⟨rfl, rfl⟩

/-- A decoding run of more codes begins with that of the first ones. -/
theorem decodeRun_append {xs ys : List (BitVec 4)} {run : List ChannelRegs} (h : decodeRun t r (xs ++ ys) = .ok run) :
    ∃ a b, decodeRun t r xs = .ok a ∧ run = a ++ b := by
  induction xs generalizing r run with
  | nil => exact ⟨[], run, rfl, rfl⟩
  | cons x xs ih =>
    obtain ⟨r', h1, h⟩ := bind_eq_ok.mp h
    obtain ⟨tl, h2, h⟩ := bind_eq_ok.mp h
    obtain rfl := Except.ok.inj h
    obtain ⟨a, b, ha, rfl⟩ := ih h2
    exact ⟨r' :: a, b, decodeRun_cons h1 ha, rfl⟩

end

section
variable {α β : Type}

/-- Slot `j` of every other slot is slot `2j`. -/
theorem everyOther_getElem? : ∀ (l : List α) (j : Nat), (everyOther l)[j]? = l[2 * j]?
  | [], _ => by simp [everyOther]
  | [_], j => by cases j <;> simp [everyOther]
  | a :: b :: l, 0 => by simp [everyOther]
  | a :: b :: l, j + 1 => by
    simp only [everyOther, List.getElem?_cons_succ, everyOther_getElem? l j, show 2 * (j + 1) = 2 * j + 1 + 1 by omega]

/-- Slot `j` of a channel's share: in mono CH0's share is the whole list; in stereo it is slot `2j` or `2j + 1`
(41_stream_codec.md R101, R102). -/
theorem channelItems_getElem? (lay : Layout) (c : Channel) (l : List α) (j : Nat) :
    (channelItems lay c l)[j]? =
      (match lay, c with
        | .mono, .ch0 => l[j]?
        | .mono, .ch1 => none
        | .stereo, .ch0 => l[2 * j]?
        | .stereo, .ch1 => l[2 * j + 1]?) := by
  cases lay <;> cases c
  · rfl
  · rfl
  · exact everyOther_getElem? l j
  · rw [channelItems, everyOther_getElem?, List.getElem?_tail]

/-- The share of a channel commutes with a map. -/
theorem channelItems_map (f : α → β) (lay : Layout) (c : Channel) (l : List α) :
    channelItems lay c (l.map f) = (channelItems lay c l).map f := by
  apply List.ext_getElem?
  intro j
  rw [List.getElem?_map, channelItems_getElem?, channelItems_getElem?]
  cases lay <;> cases c <;> simp

/-- The share of a channel in a longer list begins with its share in the first part. -/
theorem channelItems_prefix (lay : Layout) (c : Channel) (l l' : List α) :
    ∃ l'', channelItems lay c (l ++ l') = channelItems lay c l ++ l'' := by
  have key : ∀ l l' : List α, ∃ l'', everyOther (l ++ l') = everyOther l ++ l'' := by
    intro l l'
    induction l using everyOther.induct with
    | case1 => exact ⟨_, rfl⟩
    | case2 a =>
      cases l' with
      | nil => exact ⟨[], rfl⟩
      | cons b l' => exact ⟨everyOther l', by simp [everyOther]⟩
    | case3 a b rest ih =>
      obtain ⟨l'', e⟩ := ih
      exact ⟨l'', by simp [everyOther, e]⟩
  cases lay <;> cases c
  · exact ⟨_, rfl⟩
  · exact ⟨[], rfl⟩
  · exact key l l'
  · cases l with
    | nil => exact ⟨_, rfl⟩
    | cons a l => exact key l l'

/-- A list is determined by its length and its channels' shares. -/
theorem channelItems_injective (lay : Layout) {l l' : List α} (_hlen : l.length = l'.length)
    (h : ∀ c, channelItems lay c l = channelItems lay c l') : l = l' := by
  cases lay
  · exact h .ch0
  · apply List.ext_getElem?
    intro k
    have h0 := congrArg (·[k / 2]?) (h .ch0)
    have h1 := congrArg (·[k / 2]?) (h .ch1)
    simp only [channelItems_getElem?] at h0 h1
    rcases Nat.mod_two_eq_zero_or_one k with hk | hk
    · rwa [show 2 * (k / 2) = k by omega] at h0
    · rwa [show 2 * (k / 2) + 1 = k by omega] at h1

end

/-- A buffer of packed bytes reads as the codes, one more after them when their number is odd (41_stream_codec.md R105). -/
theorem bufferCodes_packed (m : Memory) (base : Word) : ∀ (len j : Nat) (codes : List (BitVec 4)),
    (∀ k < len, m.read (base.toNat + j + k) = packedByte codes k) → len = (codes.length + 1) / 2 →
    ∃ more, bufferCodes m base j len = codes ++ more := by
  intro len
  induction len with
  | zero =>
    intro j codes _ h
    obtain rfl : codes = [] := by rw [← List.length_eq_zero_iff]; omega
    exact ⟨[], rfl⟩
  | succ len ih =>
    intro j codes h hl
    have h0 := h 0 (by omega)
    rw [Nat.add_zero] at h0
    match codes with
    | [] => simp at hl
    | [a] =>
      obtain rfl : len = 0 := by simpa using hl
      refine ⟨[0], ?_⟩
      simp only [bufferCodes, h0, packedByte, extract_high_append, extract_low_append]
      rfl
    | a :: b :: codes =>
      obtain ⟨more, hm⟩ := ih (j + 1) codes (fun k hk => by
        have := h (k + 1) (by omega)
        rw [show base.toNat + (j + 1) + k = base.toNat + j + (k + 1) by omega, this]
        rfl) (by simp at hl; omega)
      refine ⟨more, ?_⟩
      simp only [bufferCodes, h0, packedByte, extract_high_append, extract_low_append, hm]
      rfl

/-- A sample's bytes are determined by its value (20_memory.md R44). -/
theorem sampleOfBytes_injective {a b c d : Byte} (h : sampleOfBytes a b = sampleOfBytes c d) : a = c ∧ b = d := by
  have h := BitVec.eq_of_toInt_eq h
  constructor
  · have := congrArg (BitVec.extractLsb' 0 8) h
    rwa [BitVec.extractLsb'_append_eq_right, BitVec.extractLsb'_append_eq_right] at this
  · have := congrArg (BitVec.extractLsb' 8 8) h
    rwa [BitVec.extractLsb'_append_eq_left, BitVec.extractLsb'_append_eq_left] at this

/-- Sample `k` of a buffer read as a list. -/
theorem bufferSamples_getElem? {m : Memory} {base : Word} (n i k : Nat) :
    (bufferSamples m base i n)[k]? = if k < n then some (bufferSample m base (i + k)) else none := by
  induction n generalizing i k with
  | zero => simp [bufferSamples]
  | succ n ih =>
    cases k with
    | zero => simp [bufferSamples]
    | succ k => simp [bufferSamples, ih, show i + 1 + k = i + (k + 1) by omega]

/-- Code `k` of a buffer read as a list: the high nibble of byte `k / 2` if `k` is even, else the low one. -/
theorem bufferCodes_getElem? {m : Memory} {base : Word} (n j k : Nat) :
    (bufferCodes m base j n)[k]? =
      if k < 2 * n then
        some ((if k % 2 = 0 then Nibble.high else .low).extract (m.read (base.toNat + j + k / 2)))
      else none := by
  induction n generalizing j k with
  | zero => simp [bufferCodes]
  | succ n ih =>
    rcases k with _ | _ | k
    · simp [bufferCodes]
    · simp [bufferCodes]; omega
    · simp [bufferCodes, ih, show (k + 1 + 1) / 2 = k / 2 + 1 by omega,
        show base.toNat + (j + 1) + k / 2 = base.toNat + j + (k / 2 + 1) by omega,
        show (k + 1 + 1) % 2 = k % 2 by omega, show (k + 1 + 1 < 2 * (n + 1)) = (k < 2 * n) by apply propext; omega]

/-- Nothing in the way of a stream command: its prologue succeeds (41_stream_codec.md R100). -/
theorem StreamReady.streamCheck {dir : Direction} {s : State} {lay : Layout} {len : Nat} (h : StreamReady dir s lay len) :
    Machine.streamCheck dir s = .ok (lay, len) := by
  have h1 := h.encEven
  have h2 := h.encLength
  have h3 := h.decLength
  have h7 := h.disjoint
  refine streamCheck_eq_ok.mpr ⟨?_, ?_, ?_, h.fits, h.inEnd, h.outEnd, by omega⟩
  · rw [h.channels]; cases lay <;> rfl
  · cases dir
    · exact h2 rfl
    · exact h3 rfl
  · rintro ⟨rfl, h'⟩
    have := h1 rfl
    omega

/-- The output length of a successful prologue fits OUT_LEN. -/
theorem streamCheck_length {dir : Direction} {s : State} {lay : Layout} {len : Nat}
    (h : streamCheck dir s = .ok (lay, len)) : (BitVec.ofNat 32 len).toNat = len := by
  obtain ⟨-, -, -, hcap, -⟩ := streamCheck_eq_ok.mp h
  have := s.outCap.isLt
  rw [BitVec.toNat_ofNat]
  omega

/-- A stream command that reports no error got past its prologue (60_exceptions.md R124). -/
theorem streamCheck_of_next {dir : Direction} {s t : State}
    (h : exec (match dir with | .enc => .encode | .dec => .decode) s = .next t) (he : t.err = 0) :
    ∃ lay len, streamCheck dir s = .ok (lay, len) := by
  have h' : (match dir with | .enc => execEncode s | .dec => execDecode s) = .next t := by cases dir <;> exact h
  rcases stream_eq_next h' with ⟨e, hc, rfl⟩ | ⟨lay, len, _, hc, _⟩
  · exfalso
    revert he
    cases e <;> simp [State.raise, CmdError.code]
  · exact ⟨lay, len, hc⟩

end Sys2Proof.Machine
end

