-- ==== Sys2Proof/Laws/Step.lean ====
section
/-! SUPPORT. The step: what it does for each kind of pending access, and the offsets of the register window. -/

namespace Sys2Proof.Machine

variable {s t : State} {rest : List HostAccess}

/-- With nothing pending the block is idle (60_exceptions.md R136). -/
theorem step_idle (h : s.pending = []) : step s = .next s := by
  simp only [step, nextAccess, h]

/-- A step performs the next access on the state without it. -/
theorem step_cons {a : HostAccess} (h : s.pending = a :: rest) :
    step s = performAccess a { s with pending := rest } := by
  simp only [step, nextAccess, h]

/-- Every register is found at its offset (10_state.md R20). -/
@[simp] theorem regAt_regOffset (r : Reg) : regAt (regOffset r) = some r := by cases r <;> decide

/-- A register found at an offset has that offset. -/
theorem regOffset_of_regAt {off : BitVec 6} {r : Reg} (h : regAt off = some r) : regOffset r = off := by
  simpa using List.find?_some h

/-- A word written to CMD is run as a command (10_state.md R21). -/
theorem step_cmdWrite {w : Word} (h : s.pending = .regWrite 0x00 4 w :: rest) :
    step s = runWord w { s with pending := rest } := by
  rw [step_cons h]; rfl

/-- A legal word runs its instruction. -/
theorem runWord_ok {w : Word} {i : Instr} (h : decode w = .ok i) : runWord w s = exec i s := by
  simp only [runWord, h]

/-- An illegal word raises ERR_ILLEGAL (30_encoding.md R68, R69). -/
theorem runWord_error {w : Word} {e : DecodeError} (h : decode w = .error e) :
    runWord w s = .next (s.raise .illegal) := by
  simp only [runWord, h]

/-- What a write to the window can be: a command, or a plain register update. -/
theorem writeOffset_cases (off : BitVec 6) (v : Word) (s : State) :
    (off = 0 ∧ writeOffset off v s = runWord v s) ∨
    (off ≠ 0 ∧ ∃ x : Option Reg, regAt off = x ∧
      writeOffset off v s = .next (match x with | some r => s.setReg r v | none => s)) := by
  cases h : regAt off with
  | none =>
    refine .inr ⟨?_, none, rfl, by simp only [writeOffset, h]⟩
    rintro rfl; revert h; decide
  | some r =>
    have := regOffset_of_regAt h
    cases r
    · exact .inl ⟨this.symm, by simp only [writeOffset, h]⟩
    all_goals exact .inr ⟨by rw [← this]; decide, _, rfl, by simp only [writeOffset, h]⟩

/-- An aligned 32-bit read returns a value and does nothing else (10_state.md R31). -/
theorem step_regRead {off : BitVec 6} (h : s.pending = .regRead off 4 :: rest) (ha : off.toNat % 4 = 0) :
    step s = .next { s with pending := rest, readData := readOffset off s } := by
  rw [step_cons h, performAccess, if_pos (by simp [accessAllowed, ha])]
  rfl

/-- An aligned 32-bit write goes to its offset. -/
theorem step_regWrite {off : BitVec 6} {v : Word} (h : s.pending = .regWrite off 4 v :: rest)
    (ha : off.toNat % 4 = 0) : step s = writeOffset off v { s with pending := rest } := by
  rw [step_cons h, performAccess, if_pos (by simp [accessAllowed, ha])]

/-- Everything a step can answer as a next state. -/
theorem step_eq_next (h : step s = .next t) :
    (s.pending = [] ∧ t = s) ∨ ∃ a rest, s.pending = a :: rest ∧
      ((∃ off bytes, a = .regRead off bytes ∧ t = { s with pending := rest, readData := readOffset off s }) ∨
      (∃ w, a = .regWrite 0x00 4 w ∧ runWord w { s with pending := rest } = .next t) ∨
      (∃ off v r, a = .regWrite off 4 v ∧ off ≠ 0 ∧ regAt off = some r ∧
        t = ({ s with pending := rest } : State).setReg r v) ∨
      (∃ off v, a = .regWrite off 4 v ∧ off ≠ 0 ∧ regAt off = none ∧ t = { s with pending := rest }) ∨
      (∃ x, a = .memRead x ∧ t = { s with pending := rest, readData := (s.mem.read x.toNat).setWidth 32 }) ∨
      (∃ x v, a = .memWrite x v ∧ t = { s with pending := rest, mem := s.mem.write x.toNat v }) ∨
      (a = .reset ∧ t = ({ s with pending := rest } : State).blockReset)) := by
  cases hp : s.pending with
  | nil =>
    rw [step_idle hp] at h
    exact .inl ⟨rfl, by simpa [eq_comm] using h⟩
  | cons a rest =>
    rw [step_cons hp] at h
    refine .inr ⟨a, rest, rfl, ?_⟩
    cases a with
    | regRead off bytes =>
      simp only [performAccess] at h
      split at h
      · exact .inl ⟨off, bytes, rfl, (Host.Outcome.next.inj h).symm⟩
      · simp at h
    | regWrite off bytes v =>
      simp only [performAccess] at h
      split at h
      · rename_i ha
        obtain rfl : bytes = 4 := by simp only [accessAllowed, Bool.and_eq_true, beq_iff_eq] at ha; exact ha.1
        rcases writeOffset_cases off v { s with pending := rest } with ⟨rfl, hw⟩ | ⟨h0, x, hx, hw⟩ <;> rw [hw] at h
        · exact .inr (.inl ⟨v, rfl, h⟩)
        · cases x with
          | none => exact .inr (.inr (.inr (.inl ⟨off, v, rfl, h0, hx, by simpa [eq_comm] using h⟩)))
          | some r => exact .inr (.inr (.inl ⟨off, v, r, rfl, h0, hx, by simpa [eq_comm] using h⟩))
      · simp at h
    | memRead x =>
      exact .inr (.inr (.inr (.inr (.inl ⟨x, rfl, by simpa [performAccess, eq_comm, State.setReadData] using h⟩))))
    | memWrite x v =>
      exact .inr (.inr (.inr (.inr (.inr (.inl ⟨x, v, rfl, by simpa [performAccess, eq_comm, State.setMem] using h⟩)))))
    | reset => exact .inr (.inr (.inr (.inr (.inr (.inr ⟨rfl, by simpa [performAccess, eq_comm] using h⟩)))))

end Sys2Proof.Machine
end

