-- ==== Sys2Proof/Machine/HostText.lean ====
section
/-! DEFINITION. The text of a program: writing a line, and reading one (30_encoding.md R72, R73; log entry 9). -/

namespace Sys2Proof.Machine

/-- The register's name in a program's text (10_state.md R20). -/
def regName : Reg → String
  | .cmd => "CMD"
  | .status => "STATUS"
  | .cfg => "CFG"
  | .inBase => "IN_BASE"
  | .inLen => "IN_LEN"
  | .outBase => "OUT_BASE"
  | .outCap => "OUT_CAP"
  | .outLen => "OUT_LEN"
  | .result => "RESULT"
  | .ch0State => "CH0_STATE"
  | .ch1State => "CH1_STATE"

/-- `ch0` or `ch1` (R72). -/
def channelName : Channel → String
  | .ch0 => "ch0"
  | .ch1 => "ch1"

/-- A command's text (R72); numbers are written in decimal. -/
def commandText : Instr → String
  | .nop => "nop"
  | .chreset ch => "chreset " ++ channelName ch
  | .decstep ch code => "decstep " ++ channelName ch ++ ", " ++ toString code.toNat
  | .encstep ch sample => "encstep " ++ channelName ch ++ ", " ++ toString sample
  | .encode => "encode"
  | .decode => "decode"

/-- A line's text (R72, R73). -/
def lineText : AsmLine → String
  | .wr r v => "wr " ++ regName r ++ ", " ++ toString v.toNat
  | .rd r => "rd " ++ regName r
  | .cmd i => commandText i
  | .mono => "mono"
  | .stereo => "stereo"
  | .setin base len => "setin " ++ toString base.toNat ++ ", " ++ toString len.toNat
  | .setout base cap => "setout " ++ toString base.toNat ++ ", " ++ toString cap.toNat
  | .resetall => "resetall"
  | .clrsticky => "clrsticky"

/-- A digit's value in a base of at most 16. -/
def digitValue (base : Nat) (c : Char) : Option Nat :=
  let n := c.toNat
  let v := if 48 ≤ n && n ≤ 57 then n - 48 else if 97 ≤ n && n ≤ 102 then n - 87
    else if 65 ≤ n && n ≤ 70 then n - 55 else 16
  if v < base then some v else none

/-- A non-empty string of digits. -/
def digitsValue (base : Nat) (digits : List Char) : Option Nat :=
  if digits.isEmpty then none
  else digits.foldlM (fun acc c => (digitValue base c).map (acc * base + ·)) 0

/-- "Numbers are decimal unless prefixed `0x`" (R72). -/
def parseNat (t : List Char) : Option Nat :=
  match t with
  | '0' :: 'x' :: digits => digitsValue 16 digits
  | _ => digitsValue 10 t

/-- A register value: 32 bits. -/
def parseWord (t : List Char) : Option Word :=
  (parseNat t).bind fun n => if n < 2 ^ 32 then some (BitVec.ofNat 32 n) else none

/-- A code, "0 to 15" (R72). -/
def parseCode (t : List Char) : Option (BitVec 4) :=
  (parseNat t).bind fun n => if n < 16 then some (BitVec.ofNat 4 n) else none

/-- A sample, "a decimal integer in [-32768, 32767] or a 16-bit hexadecimal literal" (R72). -/
def parseSample (t : List Char) : Option Int :=
  match t with
  | '0' :: 'x' :: digits =>
    (digitsValue 16 digits).bind fun n => if n < 2 ^ 16 then some (BitVec.ofNat 16 n).toInt else none
  | '-' :: digits => (digitsValue 10 digits).bind fun n => if n ≤ 32768 then some (-(n : Int)) else none
  | _ => (digitsValue 10 t).bind fun n => if n ≤ 32767 then some (n : Int) else none

/-- A register's name (R72; 10_state.md R20). -/
def parseReg (t : List Char) : Option Reg := allRegs.find? fun r => (regName r).toList == t

/-- `ch0` or `ch1` (R72). -/
def parseChannel (t : List Char) : Option Channel := [Channel.ch0, .ch1].find? fun c => (channelName c).toList == t

/-- The words of a line, a comma being a word of its own; what follows a `;` is a note (R72). -/
def lineTokens (word : List Char) : List Char → List (List Char)
  | [] => if word.isEmpty then [] else [word.reverse]
  | c :: rest =>
    let done := if word.isEmpty then [] else [word.reverse]
    if c = ';' then done
    else if c = ' ' || c = '\t' then done ++ lineTokens [] rest
    else if c = ',' then done ++ [','] :: lineTokens [] rest
    else lineTokens (c :: word) rest

/-- A line without operands. -/
def parsePlain (name : List Char) : Option AsmLine :=
  [AsmLine.cmd .nop, .cmd .encode, .cmd .decode, .mono, .stereo, .resetall, .clrsticky].find? fun l =>
    (lineText l).toList == name

/-- A line with one operand. -/
def parseUnary (name a : List Char) : Option AsmLine :=
  if name = "rd".toList then (parseReg a).map .rd
  else if name = "chreset".toList then (parseChannel a).map fun c => .cmd (.chreset c)
  else none

/-- A line with two operands. -/
def parseBinary (name a b : List Char) : Option AsmLine :=
  if name = "wr".toList then do pure (.wr (← parseReg a) (← parseWord b))
  else if name = "decstep".toList then do pure (.cmd (.decstep (← parseChannel a) (← parseCode b)))
  else if name = "encstep".toList then do pure (.cmd (.encstep (← parseChannel a) (← parseSample b)))
  else if name = "setin".toList then do pure (.setin (← parseWord a) (← parseWord b))
  else if name = "setout".toList then do pure (.setout (← parseWord a) (← parseWord b))
  else none

/-- A line read: none where it is no line of R72 or R73. -/
def parseLine (line : List Char) : Option AsmLine :=
  match lineTokens [] line with
  | [name] => parsePlain name
  | [name, a] => parseUnary name a
  | [name, a, [','], b] => parseBinary name a b
  | _ => none

end Sys2Proof.Machine
end

