-- ==== Sys2Proof/Tests/Slice0.lean ====
section
/-! SUPPORT. Tests from the spec's own vectors (95_test_vectors.md; 30_encoding.md R67, R74), and states that meet the
statements' hypotheses. Values that depend on a step size are those of the spec's candidate table. -/

namespace Sys2Proof.Tests

set_option Elab.async false

open Sys2Proof.Machine

/-- The block after reset with the candidate table. -/
def blk : State := State.resetWith StepTable.candidate []

/-- The block with CH0 at given values. -/
def at0 (si : BitVec 6) (pred : Int) : State := { blk with ch0 := { si := si, pred := BitVec.ofInt 16 pred } }

/-- The block with one access pending. -/
def pend (a : HostAccess) : State := { blk with pending := [a] }

/-- The block with a word about to be written to CMD. -/
def cmd (w : Word) : State := pend (.regWrite 0x00 4 w)

/-- The block set up for a stream command. -/
def stream (channels : BitVec 2) (inBase inLen outBase outCap : Word) (mem : Memory) : State :=
  { blk with channels, inBase, inLen, outBase, outCap, mem }

/-- What a next state shows. -/
def view {α : Type} (o : Host.Outcome State Fault Refusal) (f : State → α) : Option α :=
  match o with
  | .next s => some (f s)
  | _ => none

/-- STATUS as a host reads it after a step. -/
def statusAfter (o : Host.Outcome State Fault Refusal) : Option Word := view o fun s => s.regValue .status

/-! ### Well-formedness and decoding: words written out from R67 -/

theorem test_wellFormed_refuses_high_sample : wellFormed (.encstep .ch0 32768) = false := by decide
theorem test_wellFormed_refuses_low_sample : wellFormed (.encstep .ch1 (-32769)) = false := by decide
theorem test_decode_nop : decode 0b0000_000_0_00000000_0000000000000000 = .ok .nop := by decide
theorem test_decode_chreset : decode 0b0001_000_1_00000000_0000000000000000 = .ok (.chreset .ch1) := by decide
theorem test_decode_decstep : decode 0b0010_000_1_00000000_0000000000001011 = .ok (.decstep .ch1 11) := by decide
theorem test_decode_encstep : decode 0b0011_000_0_00000000_1111110000011000 = .ok (.encstep .ch0 (-1000)) := by decide
theorem test_decode_encode : decode 0b0100_000_0_00000000_0000000000000000 = .ok .encode := by decide
theorem test_decode_decode : decode 0b0101_000_0_00000000_0000000000000000 = .ok .decode := by decide
/-- The illegal words of 95_test_vectors.md 2.4. -/
theorem test_decode_refuses : [(0x60000000 : Word), 0xF0000000, 0x00000001, 0x01000000, 0x10000001, 0x12000000,
    0x20000010, 0x20000017, 0x2000FFFF, 0x30010000, 0x38000000, 0x40000001, 0x41000000, 0x50800000].all
    (fun w => statusAfter (step (cmd w)) == some 0x11) = true := by decide

/-! ### Commands -/

theorem test_nop_keeps_sticky : statusAfter (exec .nop { blk with err := 3, sticky := true }) = some 0x10 := by decide
theorem test_chreset_ch1 : view (exec (.chreset .ch1) { at0 8 30 with ch1 := { si := 16, pred := -93 } })
    (fun s => (s.ch0, s.ch1)) = some ({ si := 8, pred := 30 }, { si := 0, pred := 0 }) := by decide
theorem test_decstep_floors : view (exec (.decstep .ch0 7) (at0 24 1000)) (fun s => (s.ch0, s.result)) =
    some ({ si := 32, pred := 1293 }, 1293) := by decide
theorem test_decstep_saturates : view (exec (.decstep .ch0 8) (at0 48 32767)) (fun s => (s.ch0, s.result)) =
    some ({ si := 47, pred := 32573 }, 32573) := by decide
theorem test_encstep_negative : view (exec (.encstep .ch0 (-520)) (at0 10 (-500))) (fun s => (s.ch0, s.result)) =
    some ({ si := 9, pred := -515 }, 9) := by decide
theorem test_encstep_extreme : view (exec (.encstep .ch0 (-32768)) (at0 48 32767)) (fun s => (s.ch0, s.result)) =
    some ({ si := 48, pred := 29857 }, 0xF) := by decide

/-- Program P2's input: samples 0, 1000, 2000, -3000, 100. -/
def monoIn : State := stream 1 0x1000 10 0x2000 16
  [(0x1002, 0xE8), (0x1003, 0x03), (0x1004, 0xD0), (0x1005, 0x07), (0x1006, 0x48), (0x1007, 0xF4), (0x1008, 0x64)]

/-- Program P3's input, at odd addresses: frames (1000, -1000), (2000, -2000), (500, none). -/
def stereoIn : State := stream 2 0x1001 10 0x1100 3
  [(0x1001, 0xE8), (0x1002, 0x03), (0x1003, 0x18), (0x1004, 0xFC), (0x1005, 0xD0), (0x1006, 0x07), (0x1007, 0x30),
    (0x1008, 0xF8), (0x1009, 0xF4), (0x100A, 0x01)]

theorem test_encode_mono : view (exec .encode monoIn) (fun s => (s.mem.read 0x2000, s.mem.read 0x2001, s.mem.read 0x2002,
    s.mem.read 0x2003, s.outLen, s.ch0)) = some (0x07, 0x7F, 0x30, 0, 3, { si := 23, pred := 95 }) := by decide +kernel
theorem test_encode_stereo : view (exec .encode stereoIn) (fun s => (s.mem.read 0x1100, s.mem.read 0x1101,
    s.mem.read 0x1102, s.ch0, s.ch1)) =
    some (0x7F, 0x7F, 0x70, { si := 24, pred := 229 }, { si := 16, pred := -93 }) := by decide +kernel
theorem test_decode_mono : view (exec .decode (stream 1 0x2000 1 0x3000 4 [(0x2000, 0xFF)])) (fun s =>
    (s.mem.read 0x3000, s.mem.read 0x3001, s.mem.read 0x3002, s.mem.read 0x3003, s.outLen, s.ch0)) =
    some (0xE2, 0xFF, 0xA3, 0xFF, 4, { si := 16, pred := -93 }) := by decide +kernel
theorem test_decode_stereo : view (exec .decode (stream 2 0x2000 2 0x3000 8 [(0x2000, 0x19), (0x2001, 0x2A)])) (fun s =>
    (bufferSamples s.mem 0x3000 0 4, s.outLen, s.ch0, s.ch1)) =
    some ([6, -6, 16, -16], 8, { si := 0, pred := 16 }, { si := 0, pred := -16 }) := by decide +kernel

/-- The rows of 95_test_vectors.md 2.7. -/
theorem test_stream_errors : ∀ p ∈ [(stream 3 0x1000 3 0x2000 0 [], Instr.encode, (0x12 : Word)),
    (stream 0 0x1000 4 0x2000 16 [], .decode, 0x12), (stream 1 0x1000 3 0x2000 0 [], .encode, 0x13),
    (stream 1 0x1000 3 0x2000 0 [], .decode, 0x14), (stream 1 0x1000 4 0x2000 0 [], .encode, 0x14),
    (stream 1 0x1000 4 0x1003 1 [], .encode, 0x16), (stream 1 0x1000 4 0x1004 1 [], .encode, 0x00),
    (stream 1 0x1000 4 0xFFFFFFF8 16 [], .decode, 0x15), (stream 1 0xFFFFFFFC 4 0x1000 4 [], .decode, 0x14),
    (stream 1 0xFFFFFFFC 4 0x1000 16 [], .decode, 0x00)], statusAfter (exec p.2.1 p.1) = some p.2.2 := by decide +kernel

/-! ### The host's side -/

theorem test_parse_hex_sample : parseLine "encstep ch1, 0xFFFE ; note".toList = some (.cmd (.encstep .ch1 (-2))) := by
  decide +kernel
theorem test_parse_refuses_sample : parseLine "encstep ch1, 32768".toList = none := by decide +kernel
theorem test_parse_write : (parseLine "wr OUT_CAP, 0x10".toList).map lineAccesses = some [.regWrite 0x18 4 16] := by
  decide +kernel
theorem test_text : lineText (.cmd (.encstep .ch1 (-1))) = "encstep ch1, -1" := by decide
/-- The host's programming of a stream command whose input follows a container header (R57, R143). -/
theorem test_stream_program :
    assemble (streamProgram .stereo .dec 0x1000
      [0x41, 0x44, 0x50, 2, 0, 0, 0, 1, 9, 9, 9, 9, 9, 9, 9, 9, 0x7F] 0x2000 4) =
    [.regWrite 0x08 4 2, .regWrite 0x0C 4 0x1010, .regWrite 0x10 4 1, .regWrite 0x14 4 0x2000, .regWrite 0x18 4 4,
      .regWrite 0x00 4 0x50000000] := by decide +kernel
/-- The host's programming of one channel, CHRESET first (R144). -/
theorem test_single_step_program : (blk.load (singleStepProgram .ch1 [15])).pending =
    [.regWrite 0x00 4 0x11000000, .regWrite 0x00 4 0x2100000F] := by decide +kernel
/-- W6, first and last row. -/
theorem test_header : codecInput [0x41, 0x44, 0x50, 2, 0, 0, 0, 4, 9, 9, 9, 9, 9, 9, 9, 9, 0xD0, 0xD1, 0xD2, 0xD3] =
    [0xD0, 0xD1, 0xD2, 0xD3] := by decide
theorem test_header_little_endian : headerPresent [0x41, 0x44, 0x50, 2, 4, 0, 0, 0, 9, 9, 9, 9, 9, 9, 9, 9, 9, 9, 9, 9] =
    false := by decide

/-! ### Witnesses: states that meet the hypotheses of each statement -/

theorem witness_DecodeOfEncodeIsIdentity :
    wellFormed (.encstep .ch1 (-32768)) = true ∧ wellFormed (.encstep .ch0 32767) = true := by decide
theorem witness_DecodedWordEncodesBack : decode 0x3000FFFF = .ok (.encstep .ch0 (-1)) := by decide
theorem witness_ReservedOpcodesAreIllegal :
    (6 ≤ ((0x60000000 : Word) >>> 28).toNat ∧ (cmd 0x60000000).pending = .regWrite 0x00 4 0x60000000 :: []) ∧
    6 ≤ ((0xFFFFFFFF : Word) >>> 28).toNat ∧ (cmd 0xFFFFFFFF).pending = .regWrite 0x00 4 0xFFFFFFFF :: [] := by decide
/-- For each opcode, the lowest and the highest reserved bit, and bit 24 where it is reserved. -/
theorem witness_ReservedBitsAreIllegal : ∀ p ∈ [((0 : Nat), 0, 0, (0x00000001 : Word)), (0, 0, 24, 0x01000000),
    (4, 0, 27, 0x48000000), (5, 0, 23, 0x50800000), (1, 0, 0, 0x10000001), (1, 0, 27, 0x18000000), (2, 4, 4, 0x20000010),
    (2, 4, 25, 0x22000000), (3, 16, 16, 0x30010000), (3, 16, 23, 0x30800000)],
    ((p.1, p.2.1) ∈ [(1, 0), (2, 4), (3, 16)] ∨ p.1 ∈ [0, 4, 5] ∧ p.2.1 = 0) ∧ (p.2.2.2 >>> 28).toNat = p.1 ∧
    (cmd p.2.2.2).pending = .regWrite 0x00 4 p.2.2.2 :: [] ∧ p.2.1 ≤ p.2.2.1 ∧ p.2.2.1 ≤ 27 ∧
    (p.2.2.1 = 24 → p.1 ∈ [0, 4, 5]) ∧ p.2.2.2.getLsbD p.2.2.1 = true := by decide
/-- Words whose reserved bits are all 0, with every operand bit set. -/
theorem witness_ReservedBitsAreIllegal_legal : ∀ p ∈ [((0 : Nat), 0, (0x00000000 : Word)), (4, 0, 0x40000000), (5, 0, 0x50000000),
    (1, 0, 0x11000000), (2, 4, 0x2100000F), (3, 16, 0x3100FFFF)],
    ((p.1, p.2.1) ∈ [(1, 0), (2, 4), (3, 16)] ∨ p.1 ∈ [0, 4, 5] ∧ p.2.1 = 0) ∧ (p.2.2 >>> 28).toNat = p.1 ∧
    (cmd p.2.2).pending = .regWrite 0x00 4 p.2.2 :: [] ∧
    ∀ n < 28, p.2.1 ≤ n → (n = 24 → p.1 ∈ [0, 4, 5]) → p.2.2.getLsbD n = false := by decide
theorem witness_CmdWriteExecutesTheCommand : (cmd 0x20000007).pending = .regWrite 0x00 4 0x20000007 :: [] ∧
    decode 0x20000007 = .ok (.decstep .ch0 7) ∧ (pend (.regRead 0x00 4)).pending = .regRead 0x00 4 :: [] := by decide
theorem witness_PlacedWordRunsNext : decodeTableWord 32 0x310003E8 = some (.encstep .ch1 1000) := by decide
theorem witness_IdleBlockHoldsItsState : State.reset.pending = [] := rfl

/-- A state at the edge of the invariant: SI = 48, ERR = 6, RESULT = 0xFFFF, a byte at the last address. -/
def edge : State :=
  { at0 48 32767 with err := 6, result := 0xFFFF, mem := [(0xFFFFFFFF, 1)], pending := [.regWrite 0x00 4 0x20000007] }

theorem edge_inv : edge.Inv :=
  { mem := by decide, ch0 := by unfold ChannelRegs.inRange; decide, ch1 := by unfold ChannelRegs.inRange; decide,
    err := by decide, result := by decide }

theorem witness_StepKeepsInvariant : edge.Inv ∧ ∃ t, step edge = .next t := ⟨edge_inv, _, rfl⟩
theorem witness_NoFaultUnderInvariant : edge.Inv ∧ edge.memFault = [] := ⟨edge_inv, rfl⟩
theorem witness_OnlyMalformedRegisterAccessesAreRefused :
    step (pend (.regRead 0x04 2)) = .refused .registerAccess ∧
    step (pend (.regWrite 0x02 4 0)) = .refused .registerAccess := ⟨rfl, rfl⟩
theorem witness_TablesAreNeverMutated : ∃ t, step (pend .reset) = .next t := ⟨_, rfl⟩
theorem witness_OnlyCommandsAndResetWriteBlockState :
    (∃ t, step (cmd 0x20000007) = .next t ∧ t.ch0 ≠ (cmd 0x20000007).ch0) ∧
    ∃ t, step { pend .reset with err := 5 } = .next t ∧ t.err ≠ 5 := by
  refine ⟨⟨_, rfl, ?_⟩, ⟨_, rfl, ?_⟩⟩ <;> decide
theorem witness_FailedCommandChangesOnlyStatus :
    (∃ t, exec .encode (stream 3 0x1000 3 0x2000 0 []) = .next t ∧ t.err ≠ 0) ∧
    decode 0x60000000 = .error .reservedOpcode ∧ (cmd 0x60000000).pending = .regWrite 0x00 4 0x60000000 :: [] :=
  ⟨⟨_, rfl, by decide⟩, rfl, rfl⟩
theorem witness_SuccessfulCommandLeavesSticky : (∃ t, exec .nop blk = .next t) ∧
    ∃ t, exec .decode (stream 0 0x1000 4 0x2000 16 []) = .next t ∧ t.err ≠ 0 := ⟨⟨_, rfl⟩, _, rfl, by decide⟩

/-- For ENCODE and DECODE: the length of each clause, and each clause at a boundary value: channel counts 0 and 3; an odd
length; an output one byte too long; ranges that end one past 2^32; ranges that share one byte; ranges that touch. -/
theorem witness_StreamErrorsInPriorityOrder :
    (decode 0x40000001 = .error .reservedBits ∧ (cmd 0x40000001).pending = .regWrite 0x00 4 0x40000001 :: []) ∧
    (∀ p ∈ [(stream 0 0 4 8 1 [], Instr.encode, (2 : BitVec 4)), (stream 3 0 4 8 1 [], .encode, 2), (stream 1 0 3 8 1 [], .encode, 3),
      (stream 1 0 8 8 1 [], .encode, 4), (stream 2 0xFFFFFFFD 4 0 1 [], .encode, 5), (stream 1 0 8 0xFFFFFFFF 2 [], .encode, 5),
      (stream 1 0x1000 4 0x1003 1 [], .encode, 6), (stream 1 0x1000 4 0x1004 1 [], .encode, 0),
      (stream 3 0 1 8 4 [], .decode, 2), (stream 1 0 1 8 3 [], .decode, 4), (stream 1 0 1 0xFFFFFFFD 4 [], .decode, 5),
      (stream 1 0x1003 1 0x1000 4 [], .decode, 6), (stream 1 0x1004 1 0x1000 4 [], .decode, 0)],
      view (exec p.2.1 p.1) (·.err) = some p.2.2) := ⟨⟨rfl, rfl⟩, by decide +kernel⟩

theorem witness_StickyRecordsFailures : (∃ t, step (cmd 0x60000000) = .next t ∧ t.sticky = true) ∧
    (∃ t, step { pend (.regWrite 0x04 4 0x10) with sticky := true } = .next t ∧ t.sticky = false) ∧
    ∃ t, step { pend (.regWrite 0x04 4 0xFFFFFFEF) with sticky := true } = .next t ∧ t.sticky = true :=
  ⟨⟨_, rfl, rfl⟩, ⟨_, rfl, rfl⟩, _, rfl, rfl⟩
theorem witness_NopWritesErrOnly : decode 0x00000000 = .ok .nop := by decide
theorem witness_ChresetClearsItsChannel : ∀ p ∈ [((0 : Nat), (0x10000001 : Word)), (23, 0x10800000), (25, 0x13000000), (27, 0x18000000)],
    p.2 >>> 28 = 1 ∧ p.1 ≤ 27 ∧ p.1 ≠ 24 ∧ p.2.getLsbD p.1 = true ∧ (cmd p.2).pending = .regWrite 0x00 4 p.2 :: [] := by decide
theorem witness_DecstepUpdatesItsChannel :
    ((at0 0 0).chan .ch0).si.toNat ≤ 48 ∧ ((at0 48 32767).chan .ch0).si.toNat ≤ 48 ∧
    ∀ p ∈ [((4 : Nat), (0x20000010 : Word)), (23, 0x20800000), (25, 0x23000000), (27, 0x28000000)],
    p.2 >>> 28 = 2 ∧ 4 ≤ p.1 ∧ p.1 ≤ 27 ∧ p.1 ≠ 24 ∧ p.2.getLsbD p.1 = true ∧
    (cmd p.2).pending = .regWrite 0x00 4 p.2 :: [] := by decide
theorem witness_EncstepQuantizesAndUpdates :
    ((at0 0 0).chan .ch0).si.toNat ≤ 48 ∧ ((at0 48 (-32768)).chan .ch0).si.toNat ≤ 48 ∧
    ∀ p ∈ [((16 : Nat), (0x30010000 : Word)), (23, 0x30800000), (25, 0x33000000), (27, 0x38000000)],
    p.2 >>> 28 = 3 ∧ 16 ≤ p.1 ∧ p.1 ≤ 27 ∧ p.1 ≠ 24 ∧ p.2.getLsbD p.1 = true ∧
    (cmd p.2).pending = .regWrite 0x00 4 p.2 :: [] := by decide
theorem witness_StepLookupInRangeOrFault : 48 < ((at0 49 0).chan .ch0).si.toNat ∧ 48 < ((at0 63 0).chan .ch0).si.toNat := by decide
theorem witness_DecoderTracksEncoder : ∃ t, exec (.encstep .ch0 (-520)) (at0 10 (-500)) = .next t := ⟨_, rfl⟩
theorem witness_SingleChannelCommandsAreIndependent : (∃ t, exec (.decstep .ch0 7) blk = .next t) ∧
    ∃ t, exec (.encstep .ch1 5) blk = .next t := ⟨⟨_, rfl⟩, _, rfl⟩
theorem witness_StepMovesPredictionAtMostTwice : ((at0 48 0).chan .ch0).si.toNat ≤ 48 ∧
    ∃ t, exec (.decstep .ch0 7) (at0 48 0) = .next t := ⟨by decide, _, rfl⟩
theorem witness_EqualSampleStillMovesPrediction : ((at0 0 5).chan .ch0).si.toNat ≤ 48 ∧
    ((at0 48 32767).chan .ch0).si.toNat ≤ 48 := by decide

theorem monoIn_ready : StreamReady .enc monoIn .mono 3 :=
  { channels := rfl, encEven := fun _ => by decide, encLength := fun _ => by decide, decLength := nofun, fits := by decide,
    inEnd := by decide, outEnd := by decide, disjoint := by decide }
theorem stereoIn_ready : StreamReady .enc stereoIn .stereo 3 :=
  { channels := rfl, encEven := fun _ => by decide, encLength := fun _ => by decide, decLength := nofun, fits := by decide,
    inEnd := by decide, outEnd := by decide, disjoint := by decide }
/-- The input ends at 2^32, the output fills its capacity and touches the input. -/
def decodeEdge : State := stream 1 0xFFFFFFFC 4 0xFFFFFFEC 16 [(0xFFFFFFFC, 0x7F)]
theorem decodeEdge_ready : StreamReady .dec decodeEdge .mono 16 :=
  { channels := rfl, encEven := nofun, encLength := nofun, decLength := fun _ => by decide, fits := by decide,
    inEnd := by decide, outEnd := by decide, disjoint := by decide }
def decodeStereo : State := stream 2 0x2000 1 0x3000 4 [(0x2000, 0x7F)]
theorem decodeStereo_ready : StreamReady .dec decodeStereo .stereo 4 :=
  { channels := rfl, encEven := nofun, encLength := nofun, decLength := fun _ => by decide, fits := by decide,
    inEnd := by decide, outEnd := by decide, disjoint := by decide }

theorem witness_EncodePacksEachChannelsRun : (monoIn.mem.wf = true ∧ monoIn.memFault = [] ∧ StreamReady .enc monoIn .mono 3) ∧
    stereoIn.mem.wf = true ∧ stereoIn.memFault = [] ∧ StreamReady .enc stereoIn .stereo 3 :=
  ⟨⟨by decide, rfl, monoIn_ready⟩, by decide, rfl, stereoIn_ready⟩
theorem witness_DecodeUnpacksEachChannelsRun :
    (decodeEdge.mem.wf = true ∧ decodeEdge.memFault = [] ∧ StreamReady .dec decodeEdge .mono 16) ∧
    decodeStereo.mem.wf = true ∧ decodeStereo.memFault = [] ∧ StreamReady .dec decodeStereo .stereo 4 :=
  ⟨⟨by decide, rfl, decodeEdge_ready⟩, by decide, rfl, decodeStereo_ready⟩

/-- A stream state built by `stream` with a canonical memory meets the invariant. -/
theorem stream_inv {channels : BitVec 2} {inBase inLen outBase outCap : Word} {mem : Memory} (h : mem.wf = true) :
    (stream channels inBase inLen outBase outCap mem).Inv :=
  { mem := h, ch0 := Nat.zero_le _, ch1 := Nat.zero_le _, err := Nat.zero_le _, result := by simp [stream, blk, State.resetWith] }

/-- One sample, encoded and decoded back (W7's counter-vector has the same shape). -/
def oneSample : State := stream 1 0x1000 2 0x2000 1 [(0x1000, 0xFF), (0x1001, 0x7F)]
theorem witness_DecodeOfEncodedStreamIsReconstruction :
    oneSample.Inv ∧ oneSample.memFault = [] ∧ oneSample.channels = 1 ∧
    ∃ t v, exec .encode oneSample = .next t ∧ t.err = 0 ∧
      exec .decode { t with inBase := t.outBase, inLen := t.outLen, outBase := 0x3000, outCap := 4 } = .next v ∧
      v.err = 0 := ⟨stream_inv (by decide), rfl, rfl, _, _, rfl, rfl, rfl, rfl⟩
/-- Five stereo samples: an odd count, so one sample of padding. -/
theorem witness_DecodeOfEncodedStreamIsReconstruction_stereo :
    stereoIn.Inv ∧ stereoIn.memFault = [] ∧ stereoIn.channels = 2 ∧
    ∃ t v, exec .encode stereoIn = .next t ∧ t.err = 0 ∧
      exec .decode { t with inBase := t.outBase, inLen := t.outLen, outBase := 0x3000, outCap := 12 } = .next v ∧
      v.err = 0 := ⟨stream_inv (by decide), rfl, rfl, _, _, rfl, rfl, rfl, rfl⟩
theorem witness_StreamCommandIsIdempotent : oneSample.Inv ∧ oneSample.memFault = [] ∧
    (∃ t, exec .encode oneSample = .next t) ∧ ∃ t, exec .decode oneSample = .next t ∧ t.err = 4 :=
  ⟨stream_inv (by decide), rfl, ⟨_, rfl⟩, _, rfl, rfl⟩
/-- Two frames whose right samples differ: the left ones agree. -/
def oneFrame : State := stream 2 0x1000 4 0x2000 1 [(0x1000, 0xE8), (0x1001, 0x03), (0x1002, 0x18)]
theorem witness_StereoChannelsDoNotMix_encode : oneFrame.Inv ∧ Memory.wf [(0x1000, 0xE8), (0x1001, 0x03), (0x1003, 0x7F)] = true ∧
    oneFrame.memFault = [] ∧ oneFrame.channels = 2 ∧ (∃ t, exec .encode oneFrame = .next t ∧ t.err = 0) ∧
    (∃ t, exec .encode { oneFrame with mem := [(0x1000, 0xE8), (0x1001, 0x03), (0x1003, 0x7F)] } = .next t) ∧
    (∀ k < 2, 2 * k < oneFrame.inLen.toNat / 2 →
      bufferSample [(0x1000, 0xE8), (0x1001, 0x03), (0x1003, 0x7F)] 0x1000 (2 * k) = bufferSample oneFrame.mem 0x1000 (2 * k)) ∧
    ∀ k < 2, 2 * k + 1 < oneFrame.inLen.toNat / 2 →
      bufferSample [(0x1000, 0x05), (0x1002, 0x18)] 0x1000 (2 * k + 1) = bufferSample oneFrame.mem 0x1000 (2 * k + 1) :=
  ⟨stream_inv (by decide), by decide, rfl, rfl, ⟨_, rfl, rfl⟩, ⟨_, rfl⟩, by decide, by decide⟩
theorem witness_StereoChannelsDoNotMix_decode : decodeStereo.Inv ∧ Memory.wf [(0x2000, 0x70)] = true ∧ decodeStereo.channels = 2 ∧
    (∃ t, exec .decode decodeStereo = .next t ∧ t.err = 0) ∧
    (∃ t, exec .decode { decodeStereo with mem := [(0x2000, 0x70)] } = .next t) ∧
    (∀ j < decodeStereo.inLen.toNat, Nibble.high.extract (Memory.read [(0x2000, 0x70)] (0x2000 + j)) =
      Nibble.high.extract (decodeStereo.mem.read (0x2000 + j))) ∧
    ∀ j < decodeStereo.inLen.toNat, Nibble.low.extract (Memory.read [(0x2000, 0x3F)] (0x2000 + j)) =
      Nibble.low.extract (decodeStereo.mem.read (0x2000 + j)) :=
  ⟨stream_inv (by decide), by decide, rfl, ⟨_, rfl, rfl⟩, ⟨_, rfl⟩, by decide, by decide⟩
theorem witness_StreamCommandFrame : (∃ t, exec .encode oneSample = .next t ∧ t.err = 0) ∧
    ∃ t, exec .decode oneSample = .next t ∧ t.err ≠ 0 := ⟨⟨_, rfl, rfl⟩, _, rfl, by decide⟩
/-- A failing byte: the last of the input, and the last of the output. -/
theorem witness_StreamCommandFaultsOnFailingByte :
    StreamReady .enc { monoIn with memFault := [0x1009] } .mono 3 ∧ StreamReady .dec { decodeStereo with memFault := [0x3003] } .stereo 4 ∧
    exec .encode { monoIn with memFault := [0x1009] } = .fault .bufferAccess ∧
    exec .decode { decodeStereo with memFault := [0x3003] } = .fault .bufferAccess :=
  ⟨{ monoIn_ready with }, { decodeStereo_ready with }, rfl, rfl⟩
/-- Failing addresses that touch both ranges from outside. -/
theorem witness_FailingBytesOutsideTheRangesChangeNothing :
    StreamReady .enc { monoIn with memFault := [0xFFF, 0x100A, 0x1FFF, 0x2003] } .mono 3 ∧
    StreamReady .dec { decodeStereo with memFault := [0x1FFF, 0x2001, 0x2FFF, 0x3004] } .stereo 4 ∧
    (∀ a ∈ [0xFFF, 0x100A, 0x1FFF, 0x2003], ¬(0x1000 ≤ a ∧ a < 0x1000 + 10) ∧ ¬(0x2000 ≤ a ∧ a < 0x2000 + 3)) ∧
    (∀ a ∈ [0x1FFF, 0x2001, 0x2FFF, 0x3004], ¬(0x2000 ≤ a ∧ a < 0x2000 + 1) ∧ ¬(0x3000 ≤ a ∧ a < 0x3000 + 4)) ∧
    (∃ t, exec .encode monoIn = .next t) ∧ ∃ t, exec .decode decodeStereo = .next t :=
  ⟨{ monoIn_ready with }, { decodeStereo_ready with }, by decide, by decide, ⟨_, rfl⟩, _, rfl⟩
theorem witness_ResetWritesTheListedValues : (pend .reset).pending = .reset :: [] := rfl
theorem witness_StatusReadsAndClears : (pend (.regRead 0x04 4)).pending = .regRead 0x04 4 :: [] ∧
    (pend (.regWrite 0x04 4 0x10)).pending = .regWrite 0x04 4 0x10 :: [] := ⟨rfl, rfl⟩
theorem witness_ChannelViewsShowTheChannels : (pend (.regRead 0x24 4)).pending = .regRead 0x24 4 :: [] ∧
    (pend (.regWrite 0x28 4 7)).pending = .regWrite 0x28 4 7 :: [] ∧
    view (step { pend (.regRead 0x24 4) with ch0 := { si := 20, pred := -7 } }) (·.readData) = some 0x0014FFF9 := by decide
theorem witness_RegistersHoldWhatIsWritten :
    ∀ off ∈ [(0x08 : BitVec 6), 0x0C, 0x10, 0x14, 0x18, 0x1C, 0x20], (pend (.regRead off 4)).pending = .regRead off 4 :: [] ∧
      (pend (.regWrite off 4 0xFFFFFFFF)).pending = .regWrite off 4 0xFFFFFFFF :: [] := by decide
/-- Each clause at its boundaries: widths 1, 2 and 8, offset 0x02, offsets 0x28 and 0x2C, 0x1C and 0x3C. -/
theorem witness_RegisterAccessRules :
    (∀ p ∈ [((0x00 : BitVec 6), (1 : Nat)), (0x04, 2), (0x08, 8), (0x02, 4), (0x3F, 4)], (p.2 ≠ 4 ∨ p.1.toNat % 4 ≠ 0) ∧
      step (pend (.regRead p.1 p.2)) = .refused .registerAccess ∧ step (pend (.regWrite p.1 p.2 0)) = .refused .registerAccess) ∧
    (∀ off ∈ [(0x28 : BitVec 6), 0x2C, 0x3C], off.toNat % 4 = 0 ∧ (pend (.regRead off 4)).pending = .regRead off 4 :: []) ∧
    ∀ off ∈ [(0x1C : BitVec 6), 0x3C], off.toNat % 4 = 0 ∧ 0x1C ≤ off.toNat ∧
      (pend (.regWrite off 4 1)).pending = .regWrite off 4 1 :: [] := by
  refine ⟨fun p hp => ?_, by decide, by decide⟩
  simp only [List.mem_cons, List.not_mem_nil, or_false] at hp
  rcases hp with rfl | rfl | rfl | rfl | rfl <;> exact ⟨by decide, rfl, rfl⟩
theorem witness_BufferReadsReturnLastWrite : blk.mem.wf = true ∧
    ({ blk with pending := [.memWrite 0xFFFFFFFF 5, .memRead 0xFFFFFFFF] } : State).pending =
      .memWrite 0xFFFFFFFF 5 :: .memRead 0xFFFFFFFF :: [] := by decide
theorem witness_StepTablesAreTheLegalOnes : 1 ≤ candidateSteps[0] ∧ ∀ i : Fin 48, candidateSteps[i.val] < candidateSteps[i.val + 1] := by decide
theorem witness_ContainerHeaderIsSkipped :
    ([0, 0, 0, 4] : List Byte).length = 4 ∧ ([9, 9, 9, 9, 9, 9, 9, 9] : List Byte).length = 8 ∧
    (([0, 0, 0, 4] : List Byte).map BitVec.toNat).foldl (fun n b => n * 256 + b) 0 = ([1, 2, 3, 4] : List Byte).length ∧
    ([0x41, 0x44, 0x50, 2, 0, 0, 0] : List Byte).length < 16 ∧ ([0x41, 0x44, 0x50, 1] : List Byte).take 4 ≠ [0x41, 0x44, 0x50, 0x02] := by decide
theorem witness_WindowRoutesItsAddresses : Config.regBase + 0x40 ≤ Config.regBase + 0x40 := Nat.le_refl _

end Sys2Proof.Tests
end

namespace Sys2Proof

/-! The step tables of the model (00_scope.md R8, 10_state.md R17), entry by entry. -/

theorem StepTable.one_le_entry (t : StepTable) (i : Nat) (hi : i < 49) : 1 ≤ t.entries[i] :=
  t.positive _ (Vector.mem_toList_iff.mpr (Vector.getElem_mem hi))

theorem StepTable.entry_lt_entry (t : StepTable) (i j : Nat) (hij : i < j) (hj : j < 49) :
    t.entries[i] < t.entries[j] := by
  have h := List.pairwise_iff_getElem.mp t.increasing i j (by simp; omega) (by simpa using hj) hij
  simpa using h

/-- Neighbours compared are enough for a `StepTable`'s field `increasing`. -/
theorem pairwise_lt_of_lt_succ {e : Vector Nat 49} (h : ∀ (i : Nat) (hi : i < 48), e[i] < e[i + 1]) :
    e.toList.Pairwise (· < ·) := by
  refine List.isChain_iff_pairwise.mp (List.isChain_iff_getElem.mpr fun i hi => ?_)
  simpa using h i (by simp at hi; omega)

/-- In an increasing sequence the first entry is the least: enough for a `StepTable`'s field `positive`. -/
theorem one_le_of_pairwise_lt {e : Vector Nat 49} (h0 : 1 ≤ e[0]) (h : e.toList.Pairwise (· < ·)) :
    ∀ v ∈ e.toList, 1 ≤ v := by
  intro v hv
  obtain ⟨i, hi, rfl⟩ := List.mem_iff_getElem.mp hv
  rcases Nat.eq_zero_or_pos i with rfl | hpos
  · simpa using h0
  · have hlt := List.pairwise_iff_getElem.mp h 0 i (by simp) hi hpos
    exact Nat.one_le_of_lt hlt

/-- Settles O41: a table's two proof fields read at an entry, and built again from the first entry and its neighbours. -/
theorem stepTablesAreTheLegalOnes : Obligations.StepTablesAreTheLegalOnes := by
  unfold Obligations.StepTablesAreTheLegalOnes
  refine ⟨fun t i j hij hj => ⟨t.one_le_entry i (by omega), t.entry_lt_entry i j hij hj⟩, fun e h0 hsucc => ?_⟩
  have hinc := pairwise_lt_of_lt_succ hsucc
  exact ⟨{ entries := e, positive := one_le_of_pairwise_lt h0 hinc, increasing := hinc }, rfl⟩

end Sys2Proof

namespace Sys2Proof.Machine

/-! The register window by register: a read and a write at a register's own offset (10_state.md R20 to R31). -/

section
variable {s : State} {rest : List HostAccess}

@[simp] theorem readOffset_regOffset (r : Reg) (s : State) : readOffset (regOffset r) s = s.regValue r := by
  simp only [readOffset, regAt_regOffset]

theorem regOffset_aligned (r : Reg) : (regOffset r).toNat % 4 = 0 := by cases r <;> rfl

/-- The last register is CH1_STATE, at 0x28 (R20). -/
theorem regOffset_le (r : Reg) : (regOffset r).toNat ≤ 0x28 := by cases r <;> decide

/-- From 0x2C on nothing is mapped (R20, R31). -/
theorem regAt_eq_none {off : BitVec 6} (h : 0x2C ≤ off.toNat) : regAt off = none := by
  by_contra hne
  obtain ⟨r, hr⟩ := Option.ne_none_iff_exists'.mp hne
  have hle := regOffset_le r
  rw [regOffset_of_regAt hr] at hle
  omega

/-- A host read of a register returns its value and does nothing else (R31). -/
theorem step_readReg (r : Reg) (h : s.pending = .regRead (regOffset r) 4 :: rest) :
    step s = .next { s with pending := rest, readData := s.regValue r } := by
  rw [step_regRead h (regOffset_aligned r), readOffset_regOffset]

/-- A host write of a register other than CMD is the register's plain update (R22 to R31). -/
theorem step_writeReg (r : Reg) {v : Word} (hr : r ≠ .cmd) (h : s.pending = .regWrite (regOffset r) 4 v :: rest) :
    step s = .next (({ s with pending := rest } : State).setReg r v) := by
  rw [step_regWrite h (regOffset_aligned r), writeOffset, regAt_regOffset]
  cases r with
  | cmd => exact absurd rfl hr
  | _ => rfl

/-- The registers from OUT_LEN on are read-only: a write to them is ignored (R28 to R31). -/
theorem State.setReg_readOnly {r : Reg} (h : 0x1C ≤ (regOffset r).toNat) (s : State) (v : Word) :
    s.setReg r v = s := by
  cases r with
  | outLen | result | ch0State | ch1State => rfl
  | _ => exact absurd h (by decide)

/-- A write at 0x1C or above, mapped or not, changes nothing (R31). -/
theorem writeOffset_readOnly {off : BitVec 6} (h : 0x1C ≤ off.toNat) (v : Word) (s : State) :
    writeOffset off v s = .next s := by
  rcases writeOffset_cases off v s with ⟨rfl, -⟩ | ⟨-, x, hx, hw⟩
  · exact absurd h (by decide)
  · rw [hw]
    cases x with
    | none => rfl
    | some r => exact congrArg _ (State.setReg_readOnly (by rwa [regOffset_of_regAt hx]) s v)

end

/-! The fields of the words the host reads (R22, R29). -/

section
variable (e : BitVec 4) (k : Bool) (r : ChannelRegs)

theorem statusWord_err : (statusWord e k).extractLsb' 0 4 = e := BitVec.extractLsb'_append_eq_right

theorem statusWord_sticky : (statusWord e k).getLsbD 4 = k := by
  cases k <;> (revert e; decide)

theorem statusWord_reserved : (statusWord e k).extractLsb' 5 27 = 0 := by
  cases k <;> (revert e; decide)

theorem channelView_pred : (channelView r).extractLsb' 0 16 = r.pred := BitVec.extractLsb'_append_eq_right

theorem channelView_si : (channelView r).extractLsb' 16 6 = r.si := by
  rw [channelView, BitVec.extractLsb'_append_eq_of_le (by omega)]
  exact BitVec.extractLsb'_append_eq_right

theorem channelView_reserved : (channelView r).extractLsb' 22 10 = 0 := by
  rw [channelView, BitVec.extractLsb'_append_eq_of_le (by omega)]
  exact BitVec.extractLsb'_append_eq_left

end

/-! Refusals (R31). -/

theorem accessAllowed_iff {off : BitVec 6} {bytes : Nat} :
    accessAllowed off bytes = true ↔ bytes = 4 ∧ off.toNat % 4 = 0 := by
  simp only [accessAllowed, Bool.and_eq_true, beq_iff_eq]

section
variable {s : State} {x : Refusal}

theorem exec_ne_refused (i : Instr) : exec i s ≠ .refused x := by
  cases i with
  | nop | chreset => exact nofun
  | decstep | encstep => exact finish_ne_refused
  | encode =>
    rw [exec, execEncode]
    split
    · exact nofun
    · exact finish_ne_refused
  | decode =>
    rw [exec, execDecode]
    split
    · exact nofun
    · exact finish_ne_refused

theorem runWord_ne_refused (w : Word) : runWord w s ≠ .refused x := by
  rw [runWord]
  split
  · exact exec_ne_refused _
  · exact nofun

theorem writeOffset_ne_refused (off : BitVec 6) (v : Word) : writeOffset off v s ≠ .refused x := by
  rcases writeOffset_cases off v s with ⟨-, hw⟩ | ⟨-, _, -, hw⟩ <;> rw [hw]
  · exact runWord_ne_refused v
  · exact nofun

/-- A host access that the register window does not take: another width than 4 bytes, or no aligned offset (R31). -/
def MalformedAccess (a : HostAccess) : Prop :=
  ∃ (off : BitVec 6) (bytes : Nat), (bytes ≠ 4 ∨ off.toNat % 4 ≠ 0) ∧
    (a = .regRead off bytes ∨ ∃ v, a = .regWrite off bytes v)

theorem performAccess_malformed {a : HostAccess} (h : MalformedAccess a) :
    performAccess a s = .refused .registerAccess := by
  obtain ⟨off, bytes, hbad, ha⟩ := h
  have hno : ¬ accessAllowed off bytes = true := by rw [accessAllowed_iff]; omega
  rcases ha with rfl | ⟨v, rfl⟩ <;> exact if_neg hno

theorem performAccess_refused {a : HostAccess} (h : performAccess a s = .refused x) :
    x = .registerAccess ∧ MalformedAccess a := by
  cases a with
  | regRead off bytes =>
    rw [performAccess] at h
    split at h
    · cases h
    · rename_i hno
      rw [accessAllowed_iff] at hno
      exact ⟨(Host.Outcome.refused.inj h).symm, off, bytes, by omega, .inl rfl⟩
  | regWrite off bytes v =>
    rw [performAccess] at h
    split at h
    · exact absurd h (writeOffset_ne_refused off v)
    · rename_i hno
      rw [accessAllowed_iff] at hno
      exact ⟨(Host.Outcome.refused.inj h).symm, off, bytes, by omega, .inr ⟨v, rfl⟩⟩
  | memRead | memWrite | reset => cases h

end

/-! What a step leaves of the block's own state: everything but a command and the reset keeps it. -/

section
variable (s : State) (r : Reg) (v : Word)

@[simp] theorem State.setReg_ch0 : (s.setReg r v).ch0 = s.ch0 := by cases r <;> rfl
@[simp] theorem State.setReg_ch1 : (s.setReg r v).ch1 = s.ch1 := by cases r <;> rfl
@[simp] theorem State.setReg_err : (s.setReg r v).err = s.err := by cases r <;> rfl
@[simp] theorem State.setReg_outLen : (s.setReg r v).outLen = s.outLen := by cases r <;> rfl
@[simp] theorem State.setReg_result : (s.setReg r v).result = s.result := by cases r <;> rfl
@[simp] theorem State.setReg_steps : (s.setReg r v).steps = s.steps := by cases r <;> rfl
@[simp] theorem State.setReg_mem : (s.setReg r v).mem = s.mem := by cases r <;> rfl
@[simp] theorem State.setReg_memFault : (s.setReg r v).memFault = s.memFault := by cases r <;> rfl

end

/-- The registers that only a command or the reset writes (R16, R22, R28, R30), the step table (R19) and MEM_FAULT are the
same in both states. -/
structure SameBlock (s t : State) : Prop where
  ch0 : t.ch0 = s.ch0
  ch1 : t.ch1 = s.ch1
  err : t.err = s.err
  outLen : t.outLen = s.outLen
  result : t.result = s.result
  steps : t.steps = s.steps
  memFault : t.memFault = s.memFault

section
variable {s t : State}

/-- The host's own side and buffer memory are no part of it. -/
theorem SameBlock.hostUpdate (s : State) (rest : List HostAccess) (x : Word) (m : Memory) :
    SameBlock s { s with pending := rest, readData := x, mem := m } :=
  ⟨rfl, rfl, rfl, rfl, rfl, rfl, rfl⟩

theorem SameBlock.setReg (rest : List HostAccess) (r : Reg) (v : Word) :
    SameBlock s (({ s with pending := rest } : State).setReg r v) := by
  constructor <;> simp

/-- A step runs a word written to CMD, is the reset, or keeps the block's own state, and of memory all but one byte. -/
theorem step_next_cases (h : step s = .next t) :
    (∃ w rest, s.pending = .regWrite 0x00 4 w :: rest ∧ runWord w { s with pending := rest } = .next t) ∨
    (∃ rest, s.pending = .reset :: rest ∧ t = ({ s with pending := rest } : State).blockReset) ∨
    (SameBlock s t ∧ (t.mem = s.mem ∨ ∃ (a : Word) (v : Byte), t.mem = s.mem.write a.toNat v)) := by
  rcases step_eq_next h with ⟨-, rfl⟩ | ⟨a, rest, hp, hread | hcmd | hreg | hunmapped | hmemRead | hmemWrite | hreset⟩
  · exact .inr (.inr ⟨SameBlock.hostUpdate t _ _ _, .inl rfl⟩)
  · obtain ⟨_, _, -, rfl⟩ := hread
    exact .inr (.inr ⟨SameBlock.hostUpdate s _ _ _, .inl rfl⟩)
  · obtain ⟨w, rfl, hw⟩ := hcmd
    exact .inl ⟨w, rest, hp, hw⟩
  · obtain ⟨_, v, r, -, -, -, rfl⟩ := hreg
    exact .inr (.inr ⟨SameBlock.setReg rest r v, .inl (by simp)⟩)
  · obtain ⟨_, _, -, -, -, rfl⟩ := hunmapped
    exact .inr (.inr ⟨SameBlock.hostUpdate s _ _ _, .inl rfl⟩)
  · obtain ⟨_, -, rfl⟩ := hmemRead
    exact .inr (.inr ⟨SameBlock.hostUpdate s _ _ _, .inl rfl⟩)
  · obtain ⟨a, v, -, rfl⟩ := hmemWrite
    exact .inr (.inr ⟨SameBlock.hostUpdate s _ _ _, .inr ⟨a, v, rfl⟩⟩)
  · obtain ⟨rfl, rfl⟩ := hreset
    exact .inr (.inl ⟨rest, hp, rfl⟩)

/-- A word that ends in a next state ran its command or raised ERR_ILLEGAL (30_encoding.md R68, R69). -/
theorem runWord_eq_next {w : Word} (h : runWord w s = .next t) :
    (∃ i, decode w = .ok i ∧ exec i s = .next t) ∨ t = s.raise .illegal := by
  cases hd : decode w with
  | ok i => exact .inl ⟨i, rfl, by rwa [runWord_ok hd] at h⟩
  | error e =>
    rw [runWord_error hd] at h
    exact .inr (Host.Outcome.next.inj h).symm

/-! The step table and MEM_FAULT. -/

theorem Touches.steps {lo hi : Nat} (ht : Touches lo hi s t) : t.steps = s.steps := by
  obtain ⟨_, _, _, rfl, -⟩ := ht; rfl

theorem exec_tables {i : Instr} (h : exec i s = .next t) : t.steps = s.steps ∧ t.memFault = s.memFault := by
  rcases exec_eq_next h with ⟨-, rfl⟩ | ⟨c, -, rfl⟩ | ⟨c, code, r, -, -, rfl⟩ | ⟨c, x, code, r, -, -, rfl⟩ |
    ⟨dir, -, ⟨e, -, rfl⟩ | ⟨lay, len, s', -, ht, rfl⟩⟩
  · exact ⟨rfl, rfl⟩
  · exact ⟨s.setChan_steps c _, s.setChan_memFault c _⟩
  · exact ⟨s.setChan_steps c r, s.setChan_memFault c r⟩
  · exact ⟨s.setChan_steps c r, s.setChan_memFault c r⟩
  · exact ⟨rfl, rfl⟩
  · exact ⟨ht.steps, ht.memFault⟩

theorem runWord_tables {w : Word} (h : runWord w s = .next t) : t.steps = s.steps ∧ t.memFault = s.memFault := by
  rcases runWord_eq_next h with ⟨_, -, hi⟩ | rfl
  · exact exec_tables hi
  · exact ⟨rfl, rfl⟩

end

/-! The invariant (10_state.md R14, R30; 60_exceptions.md R122), kept by every update a step is made of. -/

section
variable {s t : State}

theorem CmdError.code_le (e : CmdError) : e.code.toNat ≤ 6 := by cases e <;> decide

theorem State.Inv.withPending (h : s.Inv) (rest : List HostAccess) : ({ s with pending := rest } : State).Inv :=
  ⟨h.mem, h.ch0, h.ch1, h.err, h.result⟩

theorem State.Inv.raise (h : s.Inv) (e : CmdError) : (s.raise e).Inv :=
  ⟨h.mem, h.ch0, h.ch1, e.code_le, h.result⟩

theorem State.Inv.succeed (h : s.Inv) : s.succeed.Inv := ⟨h.mem, h.ch0, h.ch1, by simp, h.result⟩

theorem State.Inv.setChan (h : s.Inv) {r : ChannelRegs} (hr : r.inRange) (c : Channel) : (s.setChan c r).Inv := by
  cases c
  · exact ⟨h.mem, hr, h.ch1, h.err, h.result⟩
  · exact ⟨h.mem, h.ch0, hr, h.err, h.result⟩

/-- RESULT takes a PRED or a code, zero-extended, so bits 31:16 stay 0 (10_state.md R30). -/
theorem State.Inv.setResult (h : s.Inv) {n : Nat} (hn : n ≤ 16) (v : BitVec n) :
    (s.setResult (v.setWidth 32)).Inv := by
  refine ⟨h.mem, h.ch0, h.ch1, h.err, ?_⟩
  calc (v.setWidth 32).toNat = v.toNat % 2 ^ 32 := BitVec.toNat_setWidth ..
    _ ≤ v.toNat := Nat.mod_le _ _
    _ < 2 ^ n := v.isLt
    _ ≤ 2 ^ 16 := Nat.pow_le_pow_right (by decide) hn

theorem State.Inv.setOutLen (h : s.Inv) (v : Word) : (s.setOutLen v).Inv := ⟨h.mem, h.ch0, h.ch1, h.err, h.result⟩

theorem State.Inv.freshChannels (h : s.Inv) : s.freshChannels.Inv :=
  ⟨h.mem, initial_inRange, initial_inRange, h.err, h.result⟩

/-- The body of a stream command, inside the address space (20_memory.md R43). -/
theorem State.Inv.touches (h : s.Inv) {lo hi : Nat} (ht : Touches lo hi s t) (hhi : hi ≤ 2 ^ 32) : t.Inv := by
  obtain ⟨_, _, _, rfl, -, hmem, hch0, hch1⟩ := ht
  exact ⟨hmem hhi h.mem, hch0 h.ch0, hch1 h.ch1, h.err, h.result⟩

theorem State.Inv.blockReset (h : s.Inv) : s.blockReset.Inv :=
  ⟨h.mem, initial_inRange, initial_inRange, by simp, by simp⟩

theorem SameBlock.inv (hb : SameBlock s t) (h : s.Inv) (hm : t.mem.wf = true) : t.Inv :=
  ⟨hm, by rw [hb.ch0]; exact h.ch0, by rw [hb.ch1]; exact h.ch1, by rw [hb.err]; exact h.err,
    by rw [hb.result]; exact h.result⟩

theorem exec_keeps_inv {i : Instr} (h : s.Inv) (hs : exec i s = .next t) : t.Inv := by
  rcases exec_eq_next hs with ⟨-, rfl⟩ | ⟨c, -, rfl⟩ | ⟨c, code, r, -, hr, rfl⟩ | ⟨c, x, code, r, -, hr, rfl⟩ |
    ⟨dir, -, ⟨e, -, rfl⟩ | ⟨lay, len, s', hok, ht, rfl⟩⟩
  · exact h.succeed
  · exact (h.setChan initial_inRange c).succeed
  · exact ((h.setChan (decodeUpdate_inRange hr) c).setResult (Nat.le_refl 16) r.pred).succeed
  · exact ((h.setChan (encodeStep_inRange hr) c).setResult (by decide) code).succeed
  · exact h.raise e
  · obtain ⟨-, -, -, -, -, hend, -⟩ := streamCheck_eq_ok.mp hok
    exact ((h.freshChannels.touches ht hend).setOutLen _).succeed

theorem runWord_keeps_inv {w : Word} (h : s.Inv) (hs : runWord w s = .next t) : t.Inv := by
  rcases runWord_eq_next hs with ⟨_, -, hi⟩ | rfl
  · exact exec_keeps_inv h hi
  · exact h.raise .illegal

end

end Sys2Proof.Machine

namespace Sys2Proof

open Machine

/-- Settles O9: a step is a command, the reset, or a change of memory alone, and each keeps the invariant. -/
theorem stepKeepsInvariant : Obligations.StepKeepsInvariant := by
  unfold Obligations.StepKeepsInvariant
  intro s t h hs
  rcases step_next_cases hs with ⟨w, rest, -, hw⟩ | ⟨rest, -, rfl⟩ | ⟨hb, hm | ⟨a, v, hm⟩⟩
  · exact runWord_keeps_inv (h.withPending rest) hw
  · exact (h.withPending rest).blockReset
  · exact hb.inv h (hm ▸ h.mem)
  · exact hb.inv h (hm ▸ Memory.wf_write h.mem a.isLt)

/-- Settles O12: only the register window refuses, and only a malformed access. -/
theorem onlyMalformedRegisterAccessesAreRefused : Obligations.OnlyMalformedRegisterAccessesAreRefused := by
  unfold Obligations.OnlyMalformedRegisterAccessesAreRefused
  intro s x
  constructor
  · intro h
    cases hp : s.pending with
    | nil => rw [step_idle hp] at h; cases h
    | cons a rest =>
      rw [step_cons hp] at h
      obtain ⟨hx, off, bytes, hbad, rfl | ⟨v, rfl⟩⟩ := performAccess_refused h
      · exact ⟨hx, off, bytes, rest, hbad, .inl rfl⟩
      · exact ⟨hx, off, bytes, rest, hbad, .inr ⟨v, rfl⟩⟩
  · rintro ⟨rfl, off, bytes, rest, hbad, hp | ⟨v, hp⟩⟩ <;> rw [step_cons hp]
    · exact performAccess_malformed ⟨off, bytes, hbad, .inl rfl⟩
    · exact performAccess_malformed ⟨off, bytes, hbad, .inr ⟨v, rfl⟩⟩

/-- Settles O13: no command, no access and no reset writes the table or MEM_FAULT. -/
theorem tablesAreNeverMutated : Obligations.TablesAreNeverMutated := by
  unfold Obligations.TablesAreNeverMutated
  intro s t hs
  rcases step_next_cases hs with ⟨_, rest, -, hw⟩ | ⟨_, -, rfl⟩ | ⟨hb, -⟩
  · exact runWord_tables (s := { s with pending := rest }) hw
  · exact ⟨rfl, rfl⟩
  · exact ⟨hb.steps, hb.memFault⟩

/-- Settles O14: a step that is neither a write to CMD nor the reset keeps all five fields. -/
theorem onlyCommandsAndResetWriteBlockState : Obligations.OnlyCommandsAndResetWriteBlockState := by
  unfold Obligations.OnlyCommandsAndResetWriteBlockState
  intro s t hs hdiff
  rcases step_next_cases hs with ⟨w, rest, hp, -⟩ | ⟨rest, hp, -⟩ | ⟨hb, -⟩
  · exact ⟨rest, .inr ⟨w, hp⟩⟩
  · exact ⟨rest, .inl hp⟩
  · exact absurd hdiff (by simp [hb.ch0, hb.ch1, hb.result, hb.outLen, hb.err])

/-- Settles O6: CMD runs the decoded command and reads 0. -/
theorem cmdWriteExecutesTheCommand : Obligations.CmdWriteExecutesTheCommand := by
  unfold Obligations.CmdWriteExecutesTheCommand
  exact fun s rest => ⟨fun w i hp hd => by rw [step_cmdWrite hp, runWord_ok hd], fun hp => step_readReg .cmd hp⟩

/-- Settles O7: the placed access is a write of the table word to CMD, in front of what was pending. -/
theorem placedWordRunsNext : Obligations.PlacedWordRunsNext := by
  unfold Obligations.PlacedWordRunsNext
  intro s w i h
  have hd : decode (tableWord 32 w) = .ok i := by
    rw [decodeTableWord] at h
    split at h
    · rename_i j hj
      rw [hj, Option.some.inj h]
    · cases h
  have hp : (s.withFetchWord 32 w).pending = .regWrite 0x00 4 (tableWord 32 w) :: s.pending := rfl
  rw [step_cmdWrite hp, runWord_ok hd]
  rfl

/-- Settles O10, on the values of 70_reset_and_hazards.md R141. -/
theorem resetMeetsInvariant : Obligations.ResetMeetsInvariant := by
  unfold Obligations.ResetMeetsInvariant
  exact ⟨rfl, initial_inRange, initial_inRange, Nat.zero_le _, Nat.two_pow_pos _⟩

/-- Settles O36, from the fields of the STATUS word. -/
theorem statusReadsAndClears : Obligations.StatusReadsAndClears := by
  unfold Obligations.StatusReadsAndClears
  exact fun s rest =>
    ⟨fun hp => ⟨_, step_readReg .status hp, statusWord_err _ _, statusWord_sticky _ _, statusWord_reserved _ _⟩,
      fun v hp => step_writeReg .status nofun hp⟩

/-- Settles O37, from the fields of a channel's view. -/
theorem channelViewsShowTheChannels : Obligations.ChannelViewsShowTheChannels := by
  unfold Obligations.ChannelViewsShowTheChannels
  intro s c off rest hc
  obtain ⟨rfl, rfl⟩ | ⟨rfl, rfl⟩ : (c = .ch0 ∧ off = 0x24) ∨ (c = .ch1 ∧ off = 0x28) := by simpa using hc
  · exact ⟨fun hp => ⟨_, step_readReg .ch0State hp, channelView_pred _, channelView_si _, channelView_reserved _⟩,
      fun v hp => step_writeReg .ch0State nofun hp⟩
  · exact ⟨fun hp => ⟨_, step_readReg .ch1State hp, channelView_pred _, channelView_si _, channelView_reserved _⟩,
      fun v hp => step_writeReg .ch1State nofun hp⟩

/-- Settles O38, register by register. -/
theorem registersHoldWhatIsWritten : Obligations.RegistersHoldWhatIsWritten := by
  unfold Obligations.RegistersHoldWhatIsWritten
  exact fun s v rest =>
    ⟨step_writeReg .cfg nofun, step_writeReg .inBase nofun, step_writeReg .inLen nofun, step_writeReg .outBase nofun,
      step_writeReg .outCap nofun, step_writeReg .outLen nofun, step_writeReg .result nofun, step_readReg .cfg,
      step_readReg .inBase, step_readReg .inLen, step_readReg .outBase, step_readReg .outCap, step_readReg .outLen,
      step_readReg .result⟩

/-- Settles O39: malformed accesses are refused, nothing is mapped from 0x2C on, no write at 0x1C or above is taken. -/
theorem registerAccessRules : Obligations.RegisterAccessRules := by
  unfold Obligations.RegisterAccessRules
  intro s off bytes v rest
  refine ⟨fun hbad => ⟨fun hp => ?_, fun hp => ?_⟩, fun ha hp => ⟨_, step_regRead hp ha, fun hoff => ?_⟩,
    fun ha hoff hp => ?_⟩
  · rw [step_cons hp]
    exact performAccess_malformed ⟨off, bytes, hbad, .inl rfl⟩
  · rw [step_cons hp]
    exact performAccess_malformed ⟨off, bytes, hbad, .inr ⟨v, rfl⟩⟩
  · simp only [readOffset, regAt_eq_none hoff]
  · rw [step_regWrite hp ha, writeOffset_readOnly hoff]

/-- Settles O44, for every base: only its alignment is known. -/
theorem windowRoutesItsAddresses : Obligations.WindowRoutesItsAddresses := by
  unfold Obligations.WindowRoutesItsAddresses
  refine ⟨Nat.mul_mod_right _ _, fun off => ?_, fun addr h => ?_⟩
  · have hlt := off.isLt
    rw [windowOffset, if_pos (by omega), Nat.add_sub_cancel_left, BitVec.ofNat_toNat, BitVec.setWidth_eq]
  · rw [windowOffset, if_neg (by omega)]

end Sys2Proof

namespace Sys2Proof.Machine

/-! The stream commands by their direction: both check, run their loop from fresh channels, and write OUT_LEN
(41_stream_codec.md R100, R104, R107). -/

/-- The stream command of a direction. -/
def Direction.command : Direction → Instr
  | .enc => .encode
  | .dec => .decode

/-- The loop of a stream command with layout `lay` and output length `len`. -/
def streamBody (dir : Direction) (lay : Layout) (len : Nat) (s : State) : Except Fault State :=
  match dir with
  | .enc => encodeBytes lay (s.inLen.toNat / 2) 0 s.freshChannels len
  | .dec => decodeBytes lay 0 s.freshChannels s.inLen.toNat

section
variable {dir : Direction} {lay : Layout} {len : Nat} {s s' t u v : State} {e : CmdError} {f : Fault}

theorem exists_command {i : Instr} (h : i = .encode ∨ i = .decode) : ∃ dir : Direction, i = dir.command := by
  rcases h with rfl | rfl
  · exact ⟨.enc, rfl⟩
  · exact ⟨.dec, rfl⟩

theorem exec_command_of_check_error (h : streamCheck dir s = .error e) : exec dir.command s = .next (s.raise e) := by
  cases dir <;> simp only [Direction.command, exec, execEncode, execDecode, h]

theorem exec_command_of_check_ok (h : streamCheck dir s = .ok (lay, len)) :
    exec dir.command s = finish (streamBody dir lay len s >>= fun s' => pure (s'.setOutLen (BitVec.ofNat 32 len))) := by
  cases dir <;> simp only [Direction.command, exec, execEncode, execDecode, streamBody, h]

theorem exec_command_of_body_ok (h : streamCheck dir s = .ok (lay, len)) (hs : streamBody dir lay len s = .ok s') :
    exec dir.command s = .next (s'.setOutLen (BitVec.ofNat 32 len)).succeed := by
  rw [exec_command_of_check_ok h, hs]
  rfl

theorem exec_command_of_body_error (h : streamCheck dir s = .ok (lay, len)) (hs : streamBody dir lay len s = .error f) :
    exec dir.command s = .fault f := by
  rw [exec_command_of_check_ok h, hs]
  rfl

/-- Past its checks a stream command answers a next state only when its loop ends. -/
theorem streamBody_of_next (h : streamCheck dir s = .ok (lay, len)) (hs : exec dir.command s = .next t) :
    ∃ s', streamBody dir lay len s = .ok s' ∧ t = (s'.setOutLen (BitVec.ofNat 32 len)).succeed := by
  rw [exec_command_of_check_ok h] at hs
  obtain ⟨_, hrun, rfl⟩ := finish_eq_next.mp hs
  obtain ⟨s', hbody, hend⟩ := bind_eq_ok.mp hrun
  exact ⟨s', hbody, by rw [Except.ok.inj hend]⟩

/-- `stream_eq_next`, for `exec`. -/
theorem exec_command_eq_next (h : exec dir.command s = .next t) :
    (∃ e, streamCheck dir s = .error e ∧ t = s.raise e) ∨
    (∃ lay len s', streamCheck dir s = .ok (lay, len) ∧
      Touches s.outBase.toNat (s.outBase.toNat + len) s.freshChannels s' ∧
      t = (s'.setOutLen (BitVec.ofNat 32 len)).succeed) :=
  stream_eq_next (dir := dir) (by cases dir <;> exact h)

theorem CmdError.code_ne_zero (e : CmdError) : e.code ≠ 0 := by cases e <;> decide

/-! Failing addresses and the two ranges (92_eei_decisions.md D15, 20_memory.md R43). -/

/-- An address in the input range or in the output range of a stream command with output length `len`. -/
def InRanges (s : State) (len a : Nat) : Prop :=
  (s.inBase.toNat ≤ a ∧ a < s.inBase.toNat + s.inLen.toNat) ∨ (s.outBase.toNat ≤ a ∧ a < s.outBase.toNat + len)

/-- A loop that ends met no failing byte in either range: it accesses all of them. -/
theorem streamBody_ok_notMem (h : streamCheck dir s = .ok (lay, len)) (hs : streamBody dir lay len s = .ok s') {a : Nat}
    (ha : InRanges s len a) : a ∉ s.memFault := by
  obtain ⟨-, hlen, heven, -⟩ := streamCheck_eq_ok.mp h
  cases dir with
  | enc =>
    obtain ⟨hout, hin⟩ := encodeBytes_ok_notMem _ hs
    simp only [State.freshChannels_outBase, State.freshChannels_inBase, State.freshChannels_memFault] at hout hin
    simp only [outputLength, true_and] at hlen heven
    rcases ha with ha | ha
    · obtain ⟨hlow, hhigh⟩ := hin ((a - s.inBase.toNat) / 2) (by omega) (by omega) (by omega)
      obtain heq | heq : a = s.inBase.toNat + 2 * ((a - s.inBase.toNat) / 2) ∨
          a = s.inBase.toNat + 2 * ((a - s.inBase.toNat) / 2) + 1 := by omega
      · rwa [heq]
      · rwa [heq]
    · have hk := hout (a - s.outBase.toNat) (by omega)
      rwa [show s.outBase.toNat + 0 + (a - s.outBase.toNat) = a by omega] at hk
  | dec =>
    obtain ⟨hin, hout⟩ := decodeBytes_ok_notMem _ hs
    simp only [State.freshChannels_outBase, State.freshChannels_inBase, State.freshChannels_memFault] at hout hin
    simp only [outputLength] at hlen
    rcases ha with ha | ha
    · have hk := hin (a - s.inBase.toNat) (by omega)
      rwa [show s.inBase.toNat + 0 + (a - s.inBase.toNat) = a by omega] at hk
    · have hk := hout (a - s.outBase.toNat) (by omega)
      rwa [show s.outBase.toNat + 4 * 0 + (a - s.outBase.toNat) = a by omega] at hk

/-- A loop starts from fresh channels, so only a failing byte can stop it. -/
theorem streamBody_error (hs : streamBody dir lay len s = .error f) : f = .bufferAccess := by
  have hfresh : ChannelsInRange s.freshChannels := ⟨initial_inRange, initial_inRange⟩
  cases dir
  · exact encodeBytes_error _ hfresh hs
  · exact decodeBytes_error _ hfresh hs

/-- A loop that ends does so, with the same effect, under failing addresses outside both ranges. -/
theorem streamBody_failingAt {mf : List Nat} (h : streamCheck dir s = .ok (lay, len))
    (hs : streamBody dir lay len s = .ok s') (hmf : ∀ a, InRanges s len a → a ∉ mf) :
    streamBody dir lay len (s.failingAt mf) = .ok (s'.failingAt mf) := by
  obtain ⟨-, hlen, -⟩ := streamCheck_eq_ok.mp h
  cases dir with
  | enc =>
    refine encodeBytes_failingAt _ hs (fun k hk => hmf _ (.inr ?_)) (fun i _ hi => ⟨hmf _ (.inl ?_), hmf _ (.inl ?_)⟩) <;>
      simp only [State.freshChannels_outBase, State.freshChannels_inBase] <;> omega
  | dec =>
    simp only [outputLength] at hlen
    refine decodeBytes_failingAt _ hs (fun k hk => hmf _ (.inl ?_)) (fun k hk => hmf _ (.inr ?_)) <;>
      simp only [State.freshChannels_outBase, State.freshChannels_inBase] <;> omega

/-! What a stream command leaves is a function of the registers it reads and of its input bytes (20_memory.md R48). -/

/-- Two states that a stream command cannot tell apart: the registers of its prologue, the step table and the bytes of the
input range are the same. -/
structure SameInput (s u : State) : Prop where
  channels : u.channels = s.channels
  inBase : u.inBase = s.inBase
  inLen : u.inLen = s.inLen
  outBase : u.outBase = s.outBase
  outCap : u.outCap = s.outCap
  steps : u.steps = s.steps
  bytes : ∀ a, s.inBase.toNat ≤ a ∧ a < s.inBase.toNat + s.inLen.toNat → u.mem.read a = s.mem.read a

theorem SameInput.streamCheck (h : SameInput s u) : streamCheck dir u = streamCheck dir s := by
  simp only [Machine.streamCheck, rangeCheck, h.channels, h.inBase, h.inLen, h.outBase, h.outCap]

theorem SameInput.samples (h : SameInput s u) : bufferSamples u.mem u.inBase 0 (u.inLen.toNat / 2) =
    bufferSamples s.mem s.inBase 0 (s.inLen.toNat / 2) := by
  rw [h.inBase, h.inLen]
  exact bufferSamples_congr _ _ fun a ha => h.bytes a (by omega)

theorem SameInput.codes (h : SameInput s u) :
    bufferCodes u.mem u.inBase 0 u.inLen.toNat = bufferCodes s.mem s.inBase 0 s.inLen.toNat := by
  rw [h.inBase, h.inLen]
  exact bufferCodes_congr _ _ fun a ha => h.bytes a (by omega)

/-- Buffers that read as the same samples hold the same bytes (R44). -/
theorem read_eq_of_bufferSamples {m m' : Memory} {base : Word} {n : Nat}
    (h : bufferSamples m base 0 n = bufferSamples m' base 0 n) {k : Nat} (hk : k < 2 * n) :
    m.read (base.toNat + k) = m'.read (base.toNat + k) := by
  have hsample := congrArg (·[k / 2]?) h
  simp only [bufferSamples_getElem?, if_pos (show k / 2 < n by omega), Option.some.injEq, Nat.zero_add] at hsample
  obtain ⟨hlow, hhigh⟩ := sampleOfBytes_injective hsample
  simp only [sampleAddr] at hlow hhigh
  obtain heven | hodd : k = 2 * (k / 2) ∨ k = 2 * (k / 2) + 1 := by omega
  · rwa [Nat.add_zero, ← heven] at hlow
  · rwa [Nat.add_assoc, ← hodd] at hhigh

/-- What a successful stream command leaves: `t` and `v` have the same channels and the same `len` output bytes. -/
def SameOutput (len : Nat) (t v : State) : Prop :=
  (∀ c, v.chan c = t.chan c) ∧ ∀ k < len, v.mem.read (t.outBase.toNat + k) = t.mem.read (t.outBase.toNat + k)

theorem chan_setOutLen_succeed (x : Word) (c : Channel) : (s.setOutLen x).succeed.chan c = s.chan c := by
  cases c <;> rfl

theorem execEncode_sameOutput (hin : SameInput s u) (hsf : s.memFault = []) (huf : u.memFault = [])
    (hsm : s.mem.wf = true) (hum : u.mem.wf = true) (hok : streamCheck .enc s = .ok (lay, len)) :
    ∃ t v, execEncode s = .next t ∧ execEncode u = .next v ∧ SameOutput len t v := by
  obtain ⟨s', cs, hs, hst, hslen, hsout, hsrun⟩ := execEncode_ok hsf hsm hok
  obtain ⟨u', cu, hu, -, hulen, huout, hurun⟩ := execEncode_ok huf hum (hin.streamCheck.trans hok)
  have hrun (c : Channel) := (hurun c).unique (by rw [hin.steps, hin.samples]; exact hsrun c)
  obtain rfl : cu = cs :=
    channelItems_injective lay (by rw [hulen, hslen, hin.inLen]) fun c => (hrun c).2
  refine ⟨_, _, hs, hu, fun c => by simpa only [chan_setOutLen_succeed] using (hrun c).1, fun k hk => ?_⟩
  have hout := (huout k hk).trans (hsout k hk).symm
  rw [hin.outBase] at hout
  simpa [hst.outBase] using hout

theorem execDecode_sameOutput (hin : SameInput s u) (hsf : s.memFault = []) (huf : u.memFault = [])
    (hsm : s.mem.wf = true) (hum : u.mem.wf = true) (hok : streamCheck .dec s = .ok (lay, len)) :
    ∃ t v, execDecode s = .next t ∧ execDecode u = .next v ∧ SameOutput len t v := by
  obtain ⟨s', ps, hs, hst, hslen, hsout, hsrun⟩ := execDecode_ok hsf hsm hok
  obtain ⟨u', pu, hu, -, hulen, huout, hurun⟩ := execDecode_ok huf hum (hin.streamCheck.trans hok)
  have hrun (c : Channel) := (hurun c).unique (by rw [hin.steps, hin.codes]; exact hsrun c)
  obtain rfl : pu = ps :=
    channelItems_injective lay (by rw [hulen, hslen, hin.inLen]) fun c => (hrun c).2
  refine ⟨_, _, hs, hu, fun c => by simpa only [chan_setOutLen_succeed] using (hrun c).1, fun k hk => ?_⟩
  obtain ⟨-, hlen, -⟩ := streamCheck_eq_ok.mp hok
  simp only [outputLength] at hlen
  rw [hin.outBase, hin.inLen] at huout
  simpa [hst.outBase] using read_eq_of_bufferSamples (huout.trans hsout.symm) (k := k) (by omega)

theorem exec_command_sameOutput (hin : SameInput s u) (hsf : s.memFault = []) (huf : u.memFault = [])
    (hsm : s.mem.wf = true) (hum : u.mem.wf = true) (hok : streamCheck dir s = .ok (lay, len)) :
    ∃ t v, exec dir.command s = .next t ∧ exec dir.command u = .next v ∧ SameOutput len t v := by
  cases dir
  · exact execEncode_sameOutput hin hsf huf hsm hum hok
  · exact execDecode_sameOutput hin hsf huf hsm hum hok

/-- A successful stream command leaves its own input as it was: the ranges share no address (R49). -/
theorem SameInput.of_touches {x : Word} (hok : Machine.streamCheck dir s = .ok (lay, len))
    (ht : Touches s.outBase.toNat (s.outBase.toNat + len) s.freshChannels s') : SameInput s (s'.setOutLen x).succeed := by
  obtain ⟨-, -, -, -, -, -, hdis⟩ := streamCheck_eq_ok.mp hok
  obtain ⟨_, _, _, rfl, hread, -⟩ := ht
  exact ⟨rfl, rfl, rfl, rfl, rfl, rfl, fun a ha => hread a (ranges_disjoint hdis ha)⟩

/-- A command that ran from `s` to `t`, run again from `t`, leaves `t` when its output is the same. -/
theorem eq_of_sameOutput {x : Word} (ht : t = (s'.setOutLen x).succeed)
    (hv : Touches t.outBase.toNat (t.outBase.toNat + len) t.freshChannels u) (hend : t.outBase.toNat + len ≤ 2 ^ 32)
    (htm : t.mem.wf = true) (hsame : SameOutput len t (u.setOutLen x).succeed) : (u.setOutLen x).succeed = t := by
  obtain ⟨c0, c1, m, rfl, hread, hwf, -⟩ := hv
  obtain ⟨hchan, hout⟩ := hsame
  have h0 : c0 = t.ch0 := hchan .ch0
  have h1 : c1 = t.ch1 := hchan .ch1
  have hm : m = t.mem := by
    refine Memory.ext_of_read (hwf hend htm) htm fun a => ?_
    by_cases ha : t.outBase.toNat ≤ a ∧ a < t.outBase.toNat + len
    · have hk := hout (a - t.outBase.toNat) (by omega)
      rwa [show t.outBase.toNat + (a - t.outBase.toNat) = a by omega] at hk
    · exact hread a ha
  subst h0 h1 hm ht
  rfl

/-- R48: a stream command run again from the state it left. -/
theorem exec_command_again (hinv : s.Inv) (hf : s.memFault = []) (hs : exec dir.command s = .next t) :
    exec dir.command t = .next t := by
  rcases exec_command_eq_next hs with ⟨e, he, rfl⟩ | ⟨lay, len, s', hok, ht, heq⟩
  · exact exec_command_of_check_error (s := s.raise e) he
  · have htm := (exec_keeps_inv hinv hs).mem
    have htf := (exec_tables hs).2.trans hf
    have hin : SameInput s t := heq ▸ SameInput.of_touches hok ht
    obtain ⟨t', v, hs', hv, hsame⟩ := exec_command_sameOutput hin hf htf hinv.mem htm hok
    obtain rfl : t = t' := Host.Outcome.next.inj (hs.symm.trans hs')
    have hcheck : streamCheck dir t = .ok (lay, len) := hin.streamCheck.trans hok
    rcases exec_command_eq_next hv with ⟨e, he, -⟩ | ⟨lay', len', u, hok', hu, rfl⟩
    · rw [hcheck] at he
      cases he
    · obtain ⟨rfl, rfl⟩ := Prod.mk.inj (Except.ok.inj (hok'.symm.trans hcheck))
      obtain ⟨-, -, -, -, -, hend, -⟩ := streamCheck_eq_ok.mp hcheck
      rw [hv, eq_of_sameOutput heq hu hend htm hsame]

end

/-! The container header (20_memory.md R57). -/

/-- A big-endian number from its bytes, the most significant first. -/
def bigEndian (l : List Byte) : Nat := (l.map BitVec.toNat).foldl (fun n b => n * 256 + b) 0

/-- The size field is the big-endian number in bytes 4 to 7. -/
theorem headerSize_eq_bigEndian {f : List Byte} (h : 8 ≤ f.length) :
    headerSize f = bigEndian ((f.drop 4).take 4) := by
  match f, h with
  | _ :: _ :: _ :: _ :: a :: b :: c :: d :: _, _ =>
    simp only [headerSize, bigEndian, List.getD_cons_succ, List.getD_cons_zero, List.drop_succ_cons, List.drop_zero,
      List.take_succ_cons, List.take_zero, List.map_cons, List.map_nil, List.foldl_cons, List.foldl_nil]
    omega

/-- A header is present exactly in a file of 16 bytes or more with the magic and a size field of its length less 16. -/
theorem headerPresent_iff {f : List Byte} : headerPresent f = true ↔
    16 ≤ f.length ∧ f.take 4 = headerMagic ∧ bigEndian ((f.drop 4).take 4) + 16 = f.length := by
  simp only [headerPresent, Bool.and_eq_true, decide_eq_true_eq, beq_iff_eq]
  constructor
  · rintro ⟨⟨hlen, hmagic⟩, hsize⟩
    rw [headerSize_eq_bigEndian hlen] at hsize
    exact ⟨by omega, hmagic, by omega⟩
  · rintro ⟨hlen, hmagic, hsize⟩
    rw [headerSize_eq_bigEndian (by omega)]
    exact ⟨⟨by omega, hmagic⟩, by omega⟩

theorem codecInput_of_header {f : List Byte} (h : headerPresent f = true) : codecInput f = f.drop 16 := by
  rw [codecInput, headerLength, if_pos h]

theorem codecInput_of_no_header {f : List Byte} (h : ¬headerPresent f = true) : codecInput f = f := by
  rw [codecInput, headerLength, if_neg h, List.drop_zero]

/-- Fields of the lengths R57 gives, in its order, are a header. -/
theorem headerPresent_fields {size filler payload : List Byte} (hsize : size.length = 4) (hfiller : filler.length = 8)
    (hval : bigEndian size = payload.length) : headerPresent (headerMagic ++ size ++ filler ++ payload) = true := by
  have hmagic : headerMagic.length = 4 := rfl
  rw [headerPresent_iff, List.append_assoc, List.append_assoc, List.take_left' hmagic, List.drop_left' hmagic,
    List.take_left' hsize, hval]
  simp only [List.length_append, hmagic, hsize, hfiller]
  exact ⟨by omega, trivial, by omega⟩

/-! The host's accesses to buffer memory (R53). -/

section
variable {s : State} {rest : List HostAccess} {a : Word}

theorem step_memWrite {v : Byte} (h : s.pending = .memWrite a v :: rest) :
    step s = .next { s with pending := rest, mem := s.mem.write a.toNat v } := by
  rw [step_cons h]
  rfl

theorem step_memRead (h : s.pending = .memRead a :: rest) :
    step s = .next { s with pending := rest, readData := (s.mem.read a.toNat).setWidth 32 } := by
  rw [step_cons h]
  rfl

end

end Sys2Proof.Machine

namespace Sys2Proof

open Machine

/-- Settles O31: what a stream command reads is as it was before it ran, so it leaves the same channels and output bytes. -/
theorem streamCommandIsIdempotent : Obligations.StreamCommandIsIdempotent := by
  unfold Obligations.StreamCommandIsIdempotent
  intro s t i hinv hf hi hs
  obtain ⟨dir, rfl⟩ := exists_command hi
  exact exec_command_again hinv hf hs

/-- Settles O33: a stream command raises its prologue's error, or touches the channels and its output range and succeeds. -/
theorem streamCommandFrame : Obligations.StreamCommandFrame := by
  unfold Obligations.StreamCommandFrame
  intro s t i hi hs
  obtain ⟨dir, rfl⟩ := exists_command hi
  rcases exec_command_eq_next hs with ⟨e, -, rfl⟩ | ⟨lay, len, s', hok, ht, rfl⟩
  · exact ⟨rfl, fun _ => ⟨rfl, rfl, rfl, rfl⟩, fun herr => absurd herr e.code_ne_zero⟩
  · obtain ⟨_, _, _, rfl, hread, -⟩ := ht
    obtain ⟨-, -, -, hcap, -⟩ := streamCheck_eq_ok.mp hok
    refine ⟨rfl, fun herr => absurd rfl herr, fun _ => ?_⟩
    rw [State.succeed_outLen, State.setOutLen_outLen, streamCheck_length hok]
    exact ⟨rfl, hcap, hread⟩

/-- Settles O34: a loop that ends met no failing byte of its ranges, and one that stops does so at a failing byte. -/
theorem streamCommandFaultsOnFailingByte : Obligations.StreamCommandFaultsOnFailingByte := by
  unfold Obligations.StreamCommandFaultsOnFailingByte
  intro s lay len a dir hready hmem ha
  have hok := hready.streamCheck
  change exec dir.command s = _
  cases hbody : streamBody dir lay len s with
  | ok s' => exact absurd hmem (streamBody_ok_notMem hok hbody ha)
  | error f => rw [exec_command_of_body_error hok hbody, streamBody_error hbody]

/-- Settles O45: the loop's success under no failing address carries over to failing addresses it does not access. -/
theorem failingBytesOutsideTheRangesChangeNothing : Obligations.FailingBytesOutsideTheRangesChangeNothing := by
  unfold Obligations.FailingBytesOutsideTheRangesChangeNothing
  intro s t lay len dir hready hfree hs
  have hok := hready.streamCheck
  have hok' : streamCheck dir (s.failingAt []) = .ok (lay, len) := hok
  obtain ⟨s', hbody, rfl⟩ := streamBody_of_next hok' hs
  exact exec_command_of_body_ok hok
    (streamBody_failingAt (s := s.failingAt []) (mf := s.memFault) hok' hbody fun a ha hmem => not_or.mpr (hfree a hmem) ha)

/-- Settles O40, from what memory reads after a write. -/
theorem bufferReadsReturnLastWrite : Obligations.BufferReadsReturnLastWrite := by
  unfold Obligations.BufferReadsReturnLastWrite
  intro s a b v rest hwf hp
  refine ⟨_, _, step_memWrite hp, step_memRead rfl, rfl, ?_⟩
  simp only [Memory.read_write hwf, BitVec.toNat_inj]

/-- Settles O43, from when a header is present. -/
theorem containerHeaderIsSkipped : Obligations.ContainerHeaderIsSkipped := by
  unfold Obligations.ContainerHeaderIsSkipped
  refine ⟨fun size filler payload hsize hfiller hval => ?_, fun f hbad => codecInput_of_no_header fun hpresent => ?_⟩
  · have hskip := codecInput_of_header (headerPresent_fields hsize hfiller hval)
    exact hskip.trans (List.drop_left' (by simp [headerMagic, hsize, hfiller]))
  · obtain ⟨hlen, hmagic, hval⟩ := headerPresent_iff.mp hpresent
    rcases hbad with hshort | hother | hdiff
    · omega
    · exact hother hmagic
    · exact hdiff hval

end Sys2Proof

namespace Sys2Proof

open Machine

/-! The decoder row by row (30_encoding.md R67 to R69): one equation per opcode. -/

section
variable {w : Word} {i j : Instr} {z : Bool} {op lowest : Nat}

theorem requireZero_eq_ok : requireZero z i = .ok j ↔ z = true ∧ i = j := by
  cases z <;> simp [requireZero]

theorem requireZero_true (h : z = true) : requireZero z i = .ok i := requireZero_eq_ok.mpr ⟨h, rfl⟩

theorem requireZero_false (h : ¬z = true) : requireZero z i = .error .reservedBits := if_neg h

theorem decode_of_nopOp (h : opField w = 0) : decode w = requireZero (w.extractLsb' 0 28 == 0) .nop := by
  simp only [decode, h]; rfl

theorem decode_of_chresetOp (h : opField w = 1) : decode w =
    requireZero (reservedHigh w == 0 && reservedMid w == 0 && dataField w == 0) (.chreset (channelField w)) := by
  simp only [decode, h]; rfl

theorem decode_of_decstepOp (h : opField w = 2) : decode w =
    requireZero (reservedHigh w == 0 && reservedMid w == 0 && w.extractLsb' 4 12 == 0)
      (.decstep (channelField w) (w.extractLsb' 0 4)) := by
  simp only [decode, h]; rfl

theorem decode_of_encstepOp (h : opField w = 3) : decode w =
    requireZero (reservedHigh w == 0 && reservedMid w == 0) (.encstep (channelField w) (dataField w).toInt) := by
  simp only [decode, h]; rfl

theorem decode_of_encodeOp (h : opField w = 4) : decode w = requireZero (w.extractLsb' 0 28 == 0) .encode := by
  simp only [decode, h]; rfl

theorem decode_of_decodeOp (h : opField w = 5) : decode w = requireZero (w.extractLsb' 0 28 == 0) .decode := by
  simp only [decode, h]; rfl

/-- Every other opcode is reserved (R69). -/
theorem opField_cases (w : Word) : opField w = 0 ∨ opField w = 1 ∨ opField w = 2 ∨ opField w = 3 ∨ opField w = 4 ∨
    opField w = 5 ∨ 6 ≤ (opField w).toNat := by
  generalize opField w = op
  revert op
  decide

theorem decode_of_reservedOp (h : 6 ≤ (opField w).toNat) : decode w = .error .reservedOpcode := by
  have hne (k : BitVec 4) (hk : k.toNat < 6) : opField w ≠ k := by rintro rfl; omega
  simp [decode, hne]

/-! Words and their fields. -/

theorem toNat_shiftRight_eq_opField : (w >>> 28).toNat = (opField w).toNat := by
  rw [opField_toNat, BitVec.toNat_ushiftRight, Nat.shiftRight_eq_div_pow]

theorem channelBit_channelField_toNat : (channelBit (channelField w)).toNat = w.toNat / 2 ^ 24 % 2 := by
  rw [channelField_eq]
  split <;> simp only [channelBit, BitVec.ofNat_eq_ofNat, BitVec.toNat_ofNat] <;> omega

/-- A word whose reserved fields are 0 is the command word of its other fields (R66). -/
theorem commandWord_fields {op : BitVec 4} (hop : opField w = op) (hhigh : reservedHigh w = 0) (hmid : reservedMid w = 0) :
    commandWord op (channelBit (channelField w)) (dataField w) = w := by
  have hh : w.toNat / 2 ^ 25 % 8 = 0 := by rw [← reservedHigh_toNat, hhigh]; rfl
  have hm : w.toNat / 2 ^ 16 % 256 = 0 := by rw [← reservedMid_toNat, hmid]; rfl
  apply BitVec.eq_of_toNat_eq
  rw [← hop, commandWord_toNat, opField_toNat, channelBit_channelField_toNat, dataField_toNat]
  omega

/-- A word with nothing below its opcode is the command word of a command without operands. -/
theorem commandWord_noOperand {op : BitVec 4} (hop : opField w = op) (hlow : w.extractLsb' 0 28 = 0) :
    commandWord op 0 0 = w := by
  have hl : w.toNat / 2 ^ 0 % 2 ^ 28 = 0 := by rw [← extract_toNat, hlow]; rfl
  apply BitVec.eq_of_toNat_eq
  rw [← hop, commandWord_toNat, opField_toNat]
  simp only [BitVec.ofNat_eq_ofNat, BitVec.toNat_ofNat]
  omega

/-- A row without operands admits its opcode's word alone (R67). -/
theorem eq_of_noOperand {op : BitVec 4} (hop : opField w = op) (h : requireZero (w.extractLsb' 0 28 == 0) i = .ok j) :
    i = j ∧ commandWord op 0 0 = w := by
  obtain ⟨hlow, hij⟩ := requireZero_eq_ok.mp h
  exact ⟨hij, commandWord_noOperand hop (beq_iff_eq.mp hlow)⟩

/-- A code stored in DATA is read back, and leaves the bits above it 0 (R68). -/
theorem extract_code (code : BitVec 4) : (code.setWidth 16).extractLsb' 0 4 = code := by
  revert code; decide

theorem extract_above_code (code : BitVec 4) : (code.setWidth 16).extractLsb' 4 12 = 0 := by
  revert code; decide

/-- DATA with only a code in it is that code, zero-extended. -/
theorem dataField_of_code (h : w.extractLsb' 4 12 = 0) : (w.extractLsb' 0 4).setWidth 16 = dataField w := by
  have hmid : w.toNat / 2 ^ 4 % 2 ^ 12 = 0 := by rw [← extract_toNat, h]; rfl
  apply BitVec.eq_of_toNat_eq
  rw [BitVec.toNat_setWidth, extract_toNat, dataField_toNat]
  omega

theorem sampleInRange_iff {x : Int} : sampleInRange x = true ↔ -32768 ≤ x ∧ x ≤ 32767 := by
  simp only [sampleInRange, Bool.and_eq_true, decide_eq_true_eq]

theorem sampleInRange_toInt (x : BitVec 16) : sampleInRange x.toInt = true := by
  have hlo := x.le_toInt
  have hhi := x.toInt_lt
  exact sampleInRange_iff.mpr (by omega)

theorem toInt_ofInt_sample {x : Int} (h : sampleInRange x = true) : (BitVec.ofInt 16 x).toInt = x := by
  obtain ⟨hlo, hhi⟩ := sampleInRange_iff.mp h
  exact BitVec.toInt_ofInt_eq_self (by decide) (by omega) (by omega)

/-! The bits the opcode map fixes at 0 (R67, R68). -/

/-- The bits fixed at 0 for the opcode `op` are all 0 in `w`: those from `lowest` to 27, bit 24 only where there is no CH. -/
def FixedBitsZero (op lowest : Nat) (w : Word) : Prop :=
  ∀ n, lowest ≤ n → n ≤ 27 → (n = 24 → op ∈ [0, 4, 5]) → w.getLsbD n = false

theorem fixedBitsZero_noOperand (hop : op ∈ [0, 4, 5]) : FixedBitsZero op 0 w ↔ w.extractLsb' 0 28 = 0 := by
  rw [extract_eq_zero]
  exact ⟨fun h n hlo hhi => h n hlo (by omega) fun _ => hop, fun h n hlo hhi _ => h n hlo (by omega)⟩

theorem fixedBitsZero_operand (hop : op ∉ [0, 4, 5]) (hl : lowest ≤ 16) : FixedBitsZero op lowest w ↔
    (reservedHigh w = 0 ∧ reservedMid w = 0) ∧ w.extractLsb' lowest (16 - lowest) = 0 := by
  simp only [reservedHigh, reservedMid, extract_eq_zero]
  constructor
  · intro h
    exact ⟨⟨fun n hlo hhi => h n (by omega) (by omega) (by omega), fun n hlo hhi => h n (by omega) (by omega) (by omega)⟩,
      fun n hlo hhi => h n hlo (by omega) (by omega)⟩
  · rintro ⟨⟨hhigh, hmid⟩, hdata⟩ n hlo hhi h24
    have hne : n ≠ 24 := fun h => hop (h24 h)
    rcases Nat.lt_or_ge n 16 with hn | hn
    · exact hdata n hlo (by omega)
    · rcases Nat.lt_or_ge n 24 with hn' | hn'
      · exact hmid n hn hn'
      · exact hhigh n (by omega) (by omega)

/-- A row of the opcode map: the opcode, and the lowest bit it fixes at 0 (R67). -/
def LegalRow (op lowest : Nat) : Prop := (op, lowest) ∈ [(1, 0), (2, 4), (3, 16)] ∨ op ∈ [0, 4, 5] ∧ lowest = 0

/-- The decoder tests the opcode, then that every bit its row fixes is 0 (R67). -/
theorem decode_of_legalRow (hrow : LegalRow op lowest) (hop : (opField w).toNat = op) :
    ∃ z i, decode w = requireZero z i ∧ (z = true ↔ FixedBitsZero op lowest w) := by
  have hfield (k : BitVec 4) (hk : op = k.toNat) : opField w = k := BitVec.eq_of_toNat_eq (hop.trans hk)
  rcases hrow with hmem | ⟨hmem, rfl⟩
  · simp only [List.mem_cons, Prod.mk.injEq, List.not_mem_nil, or_false] at hmem
    rcases hmem with ⟨rfl, rfl⟩ | ⟨rfl, rfl⟩ | ⟨rfl, rfl⟩ <;>
      rw [fixedBitsZero_operand (by decide) (by decide)]
    · exact ⟨_, _, decode_of_chresetOp (hfield 1 rfl), by simp [dataField]⟩
    · exact ⟨_, _, decode_of_decstepOp (hfield 2 rfl), by simp⟩
    · exact ⟨_, _, decode_of_encstepOp (hfield 3 rfl), by simp⟩
  · rw [fixedBitsZero_noOperand hmem, ← beq_iff_eq]
    simp only [List.mem_cons, List.not_mem_nil, or_false] at hmem
    rcases hmem with rfl | rfl | rfl
    · exact ⟨_, _, decode_of_nopOp (hfield 0 rfl), Iff.rfl⟩
    · exact ⟨_, _, decode_of_encodeOp (hfield 4 rfl), Iff.rfl⟩
    · exact ⟨_, _, decode_of_decodeOp (hfield 5 rfl), Iff.rfl⟩

end

/-! Decoder and encoder are inverse to each other. -/

/-- No bit of an operand is dropped by the encoder. -/
theorem decode_encode {i : Instr} (hwf : wellFormed i = true) : decode (encode i) = .ok i := by
  cases i with
  | nop | encode | decode => rfl
  | chreset ch => cases ch <;> rfl
  | decstep ch code =>
    rw [encode, decode_of_decstepOp (opField_commandWord ..), channelField_commandWord,
      extract_commandWord _ _ _ 0 4 (by decide), extract_commandWord _ _ _ 4 12 (by decide), extract_code,
      extract_above_code, requireZero_true (by simp)]
  | encstep ch sample =>
    rw [encode, decode_of_encstepOp (opField_commandWord ..), channelField_commandWord, dataField_commandWord,
      toInt_ofInt_sample hwf, requireZero_true (by simp)]

/-- Each row admits one word for a command: its fixed bits are 0, its operands are read off the other fields. -/
theorem encode_of_decode {w : Word} {i : Instr} (h : decode w = .ok i) : wellFormed i = true ∧ encode i = w := by
  rcases opField_cases w with hop | hop | hop | hop | hop | hop | hop
  · obtain ⟨rfl, hw⟩ := eq_of_noOperand hop ((decode_of_nopOp hop).symm.trans h)
    exact ⟨rfl, hw⟩
  · simp only [decode_of_chresetOp hop, requireZero_eq_ok, Bool.and_eq_true, beq_iff_eq] at h
    obtain ⟨⟨⟨hhigh, hmid⟩, hdata⟩, rfl⟩ := h
    exact ⟨rfl, by rw [encode, ← hdata, commandWord_fields hop hhigh hmid]⟩
  · simp only [decode_of_decstepOp hop, requireZero_eq_ok, Bool.and_eq_true, beq_iff_eq] at h
    obtain ⟨⟨⟨hhigh, hmid⟩, habove⟩, rfl⟩ := h
    exact ⟨rfl, by rw [encode, dataField_of_code habove, commandWord_fields hop hhigh hmid]⟩
  · simp only [decode_of_encstepOp hop, requireZero_eq_ok, Bool.and_eq_true, beq_iff_eq] at h
    obtain ⟨⟨hhigh, hmid⟩, rfl⟩ := h
    exact ⟨sampleInRange_toInt _, by rw [encode, BitVec.ofInt_toInt, commandWord_fields hop hhigh hmid]⟩
  · obtain ⟨rfl, hw⟩ := eq_of_noOperand hop ((decode_of_encodeOp hop).symm.trans h)
    exact ⟨rfl, hw⟩
  · obtain ⟨rfl, hw⟩ := eq_of_noOperand hop ((decode_of_decodeOp hop).symm.trans h)
    exact ⟨rfl, hw⟩
  · rw [decode_of_reservedOp hop] at h
    cases h

/-- An illegal word written to CMD is consumed and sets ERR and STICKY, nothing else (R68, R69). -/
theorem step_illegalWord {s : State} {rest : List HostAccess} {w : Word} {e : DecodeError} (hd : decode w = .error e)
    (hp : s.pending = .regWrite 0x00 4 w :: rest) : step s = .next { s with pending := rest, err := 1, sticky := true } := by
  rw [step_cmdWrite hp, runWord_error hd]
  rfl

/-- Settles O1: the encoder's fields are read back by the decoder, row by row. -/
theorem decodeOfEncodeIsIdentity : Obligations.DecodeOfEncodeIsIdentity := by
  unfold Obligations.DecodeOfEncodeIsIdentity
  exact fun _ => decode_encode

/-- Settles O2: a legal word is the command word of the fields the decoder reads. -/
theorem decodedWordEncodesBack : Obligations.DecodedWordEncodesBack := by
  unfold Obligations.DecodedWordEncodesBack
  exact fun _ _ => encode_of_decode

/-- Settles O5: the decoder's zero test is on exactly the bits that the row fixes. -/
theorem reservedBitsAreIllegal : Obligations.ReservedBitsAreIllegal := by
  unfold Obligations.ReservedBitsAreIllegal
  intro s w rest op lowest hrow hop hp
  obtain ⟨z, i, hdec, hz⟩ := decode_of_legalRow hrow (toNat_shiftRight_eq_opField ▸ hop)
  constructor
  · rintro ⟨n, hlo, hhi, h24, hset⟩
    have hbad : ¬z = true := fun h => by simpa [hset] using hz.mp h n hlo hhi h24
    exact step_illegalWord (hdec.trans (requireZero_false hbad)) hp
  · exact fun hzero => ⟨i, hdec.trans (requireZero_true (hz.mpr hzero))⟩

/-- Settles O3: the words by evaluating the encoder, their decoding from `decode_encode`. -/
theorem exampleWordsDecodeAsListed : Obligations.ExampleWordsDecodeAsListed := by
  unfold Obligations.ExampleWordsDecodeAsListed
  constructor
  · intro p hp
    obtain ⟨hwf, henc⟩ : wellFormed p.1 = true ∧ encode p.1 = p.2 := by revert p; decide
    exact ⟨henc, henc ▸ decode_encode hwf⟩
  · simp only [List.forall_mem_cons]
    exact ⟨⟨.reservedBits, rfl⟩, ⟨.reservedBits, rfl⟩, ⟨.reservedBits, rfl⟩, ⟨.reservedOpcode, rfl⟩, nofun⟩

/-- Settles O4: no row of the opcode map has the word's opcode. -/
theorem reservedOpcodesAreIllegal : Obligations.ReservedOpcodesAreIllegal := by
  unfold Obligations.ReservedOpcodesAreIllegal
  intro s w rest hop hp
  rw [toNat_shiftRight_eq_opField] at hop
  exact step_illegalWord (decode_of_reservedOp hop) hp

/-- Settles O19: NOP is `succeed` alone, and the word of a decoded command is its encoding. -/
theorem nopWritesErrOnly : Obligations.NopWritesErrOnly := by
  unfold Obligations.NopWritesErrOnly
  have hword : encode .nop = 0x00000000 := by decide
  exact ⟨fun _ => rfl, hword, fun _ h => (encode_of_decode h).2.symm.trans hword⟩

/-- Settles O42: every expansion is the definition's line, with the offsets of 10_state.md R20 and CHRESET's two words. -/
theorem pseudoInstructionsExpand : Obligations.PseudoInstructionsExpand := by
  unfold Obligations.PseudoInstructionsExpand
  exact ⟨rfl, rfl, fun _ _ => rfl, fun _ _ => rfl, rfl, rfl⟩

end Sys2Proof

namespace Sys2Proof.Machine

/-! The channel codec in the spec's own arithmetic (40_channel_codec.md R82 to R84). -/

section
variable {t : StepTable} {r r' : ChannelRegs} {step : Nat} {code : BitVec 4} {sample : Int}

/-- The magnitude with floor divisions for its shifts (30_encoding.md R62). -/
theorem codeMagnitude_eq_div (step : Nat) (code : BitVec 4) :
    codeMagnitude step code = step / 8 + (if code.getLsbD 0 then step / 4 else 0)
      + (if code.getLsbD 1 then step / 2 else 0) + (if code.getLsbD 2 then step else 0) := by
  simp only [codeMagnitude, Nat.shiftRight_eq_div_pow, Nat.reducePow]

/-- The index-delta table by the code's mantissa (10_state.md R18). -/
theorem indexDelta_eq (code : BitVec 4) :
    indexDelta code = if code.toNat % 8 < 4 then (-1 : Int) else 2 * (code.toNat % 8 : Nat) - 6 := by
  revert code; decide

theorem codeMagnitude_le (step : Nat) (code : BitVec 4) : codeMagnitude step code ≤ 2 * step := by
  rw [codeMagnitude_eq_div]
  split_ifs <;> omega

/-- `|delta| <= 2*step` (R84). -/
theorem codeDelta_natAbs_le (step : Nat) (code : BitVec 4) : (codeDelta step code).natAbs ≤ 2 * step := by
  have h := codeMagnitude_le step code
  unfold codeDelta
  split <;> omega

/-- A clamped sum is no further from a start within the bounds than the exact sum. -/
theorem clamp_add_sub_natAbs_le {x d lo hi : Int} (hlo : lo ≤ x) (hhi : x ≤ hi) :
    (clamp (x + d) lo hi - x).natAbs ≤ d.natAbs := by
  unfold clamp; omega

/-- One update moves PRED by at most twice the step (R84). -/
theorem updateWith_pred_move : ((updateWith step r code).pred.toInt - r.pred.toInt).natAbs ≤ 2 * step := by
  have hlo := r.pred.le_toInt
  have hhi := r.pred.toInt_lt
  rw [updateWith_pred]
  exact (clamp_add_sub_natAbs_le (by omega) (by omega)).trans (codeDelta_natAbs_le step code)

/-- Code 0 moves PRED up by the constant term of the magnitude (R90). -/
theorem codeDelta_zero : codeDelta step 0 = (step / 8 : Nat) := by
  simp [codeDelta, codeMagnitude_eq_div]

/-- A sample equal to PRED has raw delta 0, so its code is 0 (R83, R90). -/
theorem quantizeWith_self : quantizeWith step r r.pred.toInt = 0 := by
  simp [quantizeWith, signedCode]

theorem encodeQuantize_ok (h : r.inRange) : encodeQuantize t r sample =
    .ok (quantizeWith (t.entries[r.si.toNat]'(by unfold ChannelRegs.inRange at h; omega)) r sample) := by
  rw [encodeQuantize, lookupStep_ok h]; rfl

/-- An encode step is the quantizer's code and the update with it (R87). -/
theorem encodeStep_of_parts (hq : encodeQuantize t r sample = .ok code) (hu : decodeUpdate t r code = .ok r') :
    encodeStep t r sample = .ok (code, r') := by
  rw [encodeStep, hq, ok_bind, hu]; rfl

theorem decodeUpdate_error (h : 48 < r.si.toNat) : decodeUpdate t r code = .error .stepIndexOutOfRange := by
  rw [decodeUpdate, lookupStep_error h]; rfl

theorem encodeStep_error (h : 48 < r.si.toNat) : encodeStep t r sample = .error .stepIndexOutOfRange := by
  rw [encodeStep, encodeQuantize, lookupStep_error h]; rfl

/-- An encoder in range always runs on, and a decoder fed its codes takes the same registers (R88). -/
theorem encodeRun_decodes (samples : List Int) (h : r.inRange) :
    ∃ run, encodeRun t r samples = .ok run ∧ run.length = samples.length ∧
      decodeRun t r (run.map Prod.fst) = .ok (run.map Prod.snd) := by
  induction samples generalizing r with
  | nil => exact ⟨[], rfl, rfl, rfl⟩
  | cons x xs ih =>
    obtain ⟨code, r', hstep, hr'⟩ := encodeStep_ok (t := t) (sample := x) h
    obtain ⟨run, henc, hlen, hdec⟩ := ih hr'
    exact ⟨(code, r') :: run, encodeRun_cons hstep henc, congrArg (· + 1) hlen,
      decodeRun_cons (encodeStep_eq_ok hstep).2 hdec⟩

end

/-! The single-channel commands: what they answer, given what the codec does on their channel (R85 to R87). -/

section
variable {s t : State} {c : Channel} {r r' : ChannelRegs} {code : BitVec 4} {x : Int} {i : Instr} {n : BitVec 2} {f : Fault}

@[simp] theorem State.chan_setResult (s : State) (v : Word) (c : Channel) : (s.setResult v).chan c = s.chan c := by
  cases c <;> rfl

@[simp] theorem State.chan_succeed (s : State) (c : Channel) : s.succeed.chan c = s.chan c := by cases c <;> rfl

theorem exec_decstep_of_ok (h : decodeUpdate s.steps (s.chan c) code = .ok r) :
    exec (.decstep c code) s = .next ((s.setChan c r).setResult (r.pred.setWidth 32)).succeed := by
  rw [exec, execDecstep, h]; rfl

theorem exec_decstep_of_error (h : decodeUpdate s.steps (s.chan c) code = .error f) :
    exec (.decstep c code) s = .fault f := by
  rw [exec, execDecstep, h]; rfl

theorem exec_encstep_of_ok (h : encodeStep s.steps (s.chan c) x = .ok (code, r)) :
    exec (.encstep c x) s = .next ((s.setChan c r).setResult (code.setWidth 32)).succeed := by
  rw [exec, execEncstep, h]; rfl

theorem exec_encstep_of_error (h : encodeStep s.steps (s.chan c) x = .error f) :
    exec (.encstep c x) s = .fault f := by
  rw [exec, execEncstep, h]; rfl

/-- DECSTEP and ENCSTEP advance their channel by DecodeUpdate with some code (R86, R87). -/
theorem exec_step_decodeUpdate (hi : (∃ code, i = .decstep c code) ∨ ∃ x, i = .encstep c x) (h : exec i s = .next t) :
    ∃ code, decodeUpdate s.steps (s.chan c) code = .ok (t.chan c) := by
  rcases hi with ⟨code, rfl⟩ | ⟨x, rfl⟩
  · obtain ⟨r, hr, rfl⟩ := execDecstep_eq_next h
    exact ⟨code, by simpa using hr⟩
  · obtain ⟨code, r, hr, rfl⟩ := execEncstep_eq_next h
    exact ⟨code, by simpa using (encodeStep_eq_ok hr).2⟩

/-! The other channel and CFG (R89, 10_state.md R23). -/

/-- The state with other registers in the channel that is not `c`, and another CFG. -/
def State.replaceOther (c : Channel) (r : ChannelRegs) (n : BitVec 2) (s : State) : State :=
  match c with
  | .ch0 => { s with ch1 := r, channels := n }
  | .ch1 => { s with ch0 := r, channels := n }

theorem State.chan_replaceOther : (s.replaceOther c r n).chan c = s.chan c := by cases c <;> rfl

theorem State.steps_replaceOther : (s.replaceOther c r n).steps = s.steps := by cases c <;> rfl

theorem State.setChan_replaceOther :
    (s.replaceOther c r n).setChan c r' = (s.setChan c r').replaceOther c r n := by cases c <;> rfl

theorem State.setResult_replaceOther (v : Word) :
    (s.replaceOther c r n).setResult v = (s.setResult v).replaceOther c r n := by cases c <;> rfl

theorem State.succeed_replaceOther : (s.replaceOther c r n).succeed = s.succeed.replaceOther c r n := by cases c <;> rfl

/-- A command on channel `c` alone. -/
def OnChannel (c : Channel) (i : Instr) : Prop :=
  i = .chreset c ∨ (∃ code, i = .decstep c code) ∨ ∃ x, i = .encstep c x

/-- A command on `c` writes no other channel. -/
theorem exec_onChannel_chan_other (hi : OnChannel c i) (h : exec i s = .next t) {d : Channel} (hd : d ≠ c) :
    t.chan d = s.chan d := by
  rcases hi with rfl | ⟨code, rfl⟩ | ⟨x, rfl⟩
  · obtain rfl := Host.Outcome.next.inj h
    rw [State.chan_succeed, State.chan_setChan_other _ _ hd]
  · obtain ⟨r, -, rfl⟩ := execDecstep_eq_next h
    rw [State.chan_succeed, State.chan_setResult, State.chan_setChan_other _ _ hd]
  · obtain ⟨code, r, -, rfl⟩ := execEncstep_eq_next h
    rw [State.chan_succeed, State.chan_setResult, State.chan_setChan_other _ _ hd]

/-- A command on `c` reads neither the other channel nor CFG, and keeps both. -/
theorem exec_onChannel_replaceOther (hi : OnChannel c i) (h : exec i s = .next t) (r : ChannelRegs) (n : BitVec 2) :
    exec i (s.replaceOther c r n) = .next (t.replaceOther c r n) := by
  rcases hi with rfl | ⟨code, rfl⟩ | ⟨x, rfl⟩
  · obtain rfl := Host.Outcome.next.inj h
    rw [exec, execChreset, State.setChan_replaceOther, State.succeed_replaceOther]
  · obtain ⟨r', hr, rfl⟩ := execDecstep_eq_next h
    rw [exec_decstep_of_ok (by rw [State.steps_replaceOther, State.chan_replaceOther, hr]),
      State.setChan_replaceOther, State.setResult_replaceOther, State.succeed_replaceOther]
  · obtain ⟨code, r', hr, rfl⟩ := execEncstep_eq_next h
    rw [exec_encstep_of_ok (by rw [State.steps_replaceOther, State.chan_replaceOther, hr]),
      State.setChan_replaceOther, State.setResult_replaceOther, State.succeed_replaceOther]

end

end Sys2Proof.Machine

namespace Sys2Proof

open Machine

/-- DATA stands in the low bits of a command word (30_encoding.md R66). -/
theorem commandWord_eq_or (op : BitVec 4) (ch : BitVec 1) (data : BitVec 16) :
    commandWord op ch data = commandWord op ch 0 ||| data.setWidth 32 := by
  have hdata : data.setWidth 32 = 0#16 ++ data := BitVec.setWidth_eq_append (by decide)
  rw [hdata, commandWord, commandWord, BitVec.or_append]
  simp

/-- The bits that the rows of CHRESET, DECSTEP and ENCSTEP fix at 0 (R67, R68). -/
theorem step_reservedBit {s : State} {w : Word} {n op lowest : Nat} {rest : List HostAccess}
    (hrow : (op, lowest) ∈ [(1, 0), (2, 4), (3, 16)]) (hop : (w >>> 28).toNat = op) (hlo : lowest ≤ n) (hhi : n ≤ 27)
    (h24 : n ≠ 24) (hset : w.getLsbD n = true) (hp : s.pending = .regWrite 0x00 4 w :: rest) :
    step s = .next { s with pending := rest, err := 1, sticky := true } :=
  (reservedBitsAreIllegal s w rest op lowest (.inl hrow) hop hp).1 ⟨n, hlo, hhi, fun h => absurd h h24, hset⟩

/-- Settles O21: the update at the step of the old SI, its delta and index delta in plain arithmetic. -/
theorem decstepUpdatesItsChannel : Obligations.DecstepUpdatesItsChannel := by
  unfold Obligations.DecstepUpdatesItsChannel
  refine ⟨fun s c code h => ?_, fun code => ⟨?_, ?_⟩, fun s w n rest hop hlo hhi h24 hset hp =>
    step_reservedBit (by decide) (congrArg BitVec.toNat hop) hlo hhi h24 hset hp⟩
  · intro step magnitude delta indexDelta'
    have hdelta : codeDelta step code = delta := by
      rw [codeDelta, codeMagnitude_eq_div]
    refine ⟨updateWith step (s.chan c) code, ?_, ?_, exec_decstep_of_ok (decodeUpdate_ok h)⟩
    · rw [updateWith_pred, hdelta, clamp]
    · rw [updateWith_si, indexDelta_eq, clamp]
  · exact commandWord_eq_or 2 0 _
  · exact commandWord_eq_or 2 1 _

/-- Settles O22: the quantizer's sign and mantissa, then the update that DECSTEP makes with that code. -/
theorem encstepQuantizesAndUpdates : Obligations.EncstepQuantizesAndUpdates := by
  unfold Obligations.EncstepQuantizesAndUpdates
  refine ⟨fun s c sample h => ?_, fun sample => ?_, fun s w n rest hop hlo hhi h24 hset hp =>
    step_reservedBit (by decide) (congrArg BitVec.toNat hop) hlo hhi h24 hset hp⟩
  · intro step rawDelta
    have hupdate := decodeUpdate_ok (t := s.steps) (code := quantizeWith step (s.chan c) sample) h
    refine ⟨quantizeWith step (s.chan c) sample, _, ?_, quantizeWith_magnitude, exec_decstep_of_ok hupdate,
      exec_encstep_of_ok (encodeStep_of_parts (encodeQuantize_ok h) hupdate)⟩
    exact quantizeWith_sign.trans (decide_eq_decide.mpr (by omega))
  · rw [encode, encode, BitVec.ofInt_toInt]
    exact ⟨commandWord_eq_or 3 0 sample, commandWord_eq_or 3 1 sample⟩

/-- Settles O24: both commands update with the same code; along a run, by induction on the samples. -/
theorem decoderTracksEncoder : Obligations.DecoderTracksEncoder := by
  unfold Obligations.DecoderTracksEncoder
  refine ⟨fun s t c sample h => ?_, fun table samples => encodeRun_decodes samples initial_inRange⟩
  obtain ⟨code, r, hr, rfl⟩ := execEncstep_eq_next h
  refine ⟨code, _, rfl, exec_decstep_of_ok (encodeStep_eq_ok hr).2, rfl, ?_⟩
  simp

/-- Settles O25, for each of the two channels. -/
theorem singleChannelCommandsAreIndependent : Obligations.SingleChannelCommandsAreIndependent := by
  unfold Obligations.SingleChannelCommandsAreIndependent
  exact fun s t i r n =>
    ⟨fun hi h => ⟨exec_onChannel_chan_other (c := .ch0) (d := .ch1) hi h nofun,
        exec_onChannel_replaceOther (c := .ch0) hi h r n⟩,
      fun hi h => ⟨exec_onChannel_chan_other (c := .ch1) (d := .ch0) hi h nofun,
        exec_onChannel_replaceOther (c := .ch1) hi h r n⟩⟩

/-- Settles O26: the bound on the delta, carried through the clamp. -/
theorem stepMovesPredictionAtMostTwice : Obligations.StepMovesPredictionAtMostTwice := by
  unfold Obligations.StepMovesPredictionAtMostTwice
  intro s t c i h hi hs
  obtain ⟨code, hupdate⟩ := exec_step_decodeUpdate hi hs
  rw [← Except.ok.inj ((decodeUpdate_ok h).symm.trans hupdate)]
  exact updateWith_pred_move

/-- Settles O20: CHRESET is `setChan` and `succeed`; its two words by evaluation. -/
theorem chresetClearsItsChannel : Obligations.ChresetClearsItsChannel := by
  unfold Obligations.ChresetClearsItsChannel
  exact ⟨fun s => ⟨rfl, rfl⟩, by decide, by decide, fun s w n rest hop hhi h24 hset hp =>
    step_reservedBit (lowest := 0) (by decide) (congrArg BitVec.toNat hop) (Nat.zero_le n) hhi h24 hset hp⟩

/-- Settles O23: a legal table's entries are positive, and both commands begin with the lookup. -/
theorem stepLookupInRangeOrFault : Obligations.StepLookupInRangeOrFault := by
  unfold Obligations.StepLookupInRangeOrFault
  exact ⟨fun t i h => t.one_le_entry i (by omega), fun s c h =>
    ⟨fun code => exec_decstep_of_error (decodeUpdate_error h), fun x => exec_encstep_of_error (encodeStep_error h)⟩⟩

/-- Settles O27: the code is 0, whose delta is the step over 8 and whose index delta is -1. -/
theorem equalSampleStillMovesPrediction : Obligations.EqualSampleStillMovesPrediction := by
  unfold Obligations.EqualSampleStillMovesPrediction
  intro s c h
  have hupdate := decodeUpdate_ok (t := s.steps) (code := 0) h
  have hcode := encodeQuantize_ok (t := s.steps) (sample := (s.chan c).pred.toInt) h
  rw [quantizeWith_self] at hcode
  refine ⟨_, exec_encstep_of_ok (encodeStep_of_parts hcode hupdate), rfl, ?_, ?_⟩ <;>
    simp only [State.chan_succeed, State.chan_setResult, State.chan_setChan_same]
  · have hlo := (s.chan c).pred.le_toInt
    rw [updateWith_pred, codeDelta_zero, clamp]
    omega
  · have hsi := updateWith_si (step := s.steps.entries[(s.chan c).si.toNat]'(by omega)) (r := s.chan c) (code := 0)
    have hone : indexDelta 0 = -1 := rfl
    rw [hone, clamp] at hsi
    omega

end Sys2Proof

namespace Sys2Proof.Machine

/-! A channel's share of a stereo stream: the slots of its nibble (41_stream_codec.md R102). -/

/-- Slot `k` of the share of nibble `h`'s channel is slot `2k + h` of the whole stream. -/
theorem stereoItems_getElem? {α : Type} (h : Nibble) (l : List α) (k : Nat) :
    (channelItems .stereo (Layout.stereo.channel h) l)[k]? = l[sampleIndex k h]? := by
  rw [channelItems_getElem?]
  cases h <;> rfl

/-- Nibble `h` of packed byte `j` is code `j` of its channel's share, 0 where there is none (R105). -/
theorem extract_packedByte (h : Nibble) (codes : List (BitVec 4)) (j : Nat) :
    h.extract (packedByte codes j) = (channelItems .stereo (Layout.stereo.channel h) codes)[j]?.getD 0 := by
  rw [stereoItems_getElem?, packedByte, List.getD_eq_getElem?_getD, List.getD_eq_getElem?_getD]
  cases h
  · exact extract_high_append _ _
  · exact extract_low_append _ _

/-- The share of nibble `h`'s channel in a PCM buffer depends on the samples `2k + h` only. -/
theorem stereoItems_bufferSamples_congr {h : Nibble} {m m' : Memory} {base : Word} {n : Nat}
    (heq : ∀ k, sampleIndex k h < n → bufferSample m base (sampleIndex k h) = bufferSample m' base (sampleIndex k h)) :
    channelItems .stereo (Layout.stereo.channel h) (bufferSamples m base 0 n) =
      channelItems .stereo (Layout.stereo.channel h) (bufferSamples m' base 0 n) := by
  apply List.ext_getElem?
  intro k
  simp only [stereoItems_getElem?, bufferSamples_getElem?, Nat.zero_add]
  split
  · rw [heq k ‹_›]
  · rfl

theorem sampleIndex_lt {k n : Nat} {h : Nibble} : sampleIndex k h < 2 * n ↔ k < n := by
  cases h <;> simp only [sampleIndex, Nibble.index] <;> omega

/-- Code `2k + h` of an ADPCM buffer is nibble `h` of byte `k` (30_encoding.md R63). -/
theorem bufferCodes_sampleIndex {m : Memory} {base : Word} {n : Nat} (k : Nat) (h : Nibble) :
    (bufferCodes m base 0 n)[sampleIndex k h]? = if k < n then some (h.extract (m.read (base.toNat + k))) else none := by
  simp only [bufferCodes_getElem?, sampleIndex_lt, Nat.add_zero]
  cases h <;> simp [sampleIndex, Nibble.index, Nat.mul_add_div]

/-- The share of nibble `h`'s channel in an ADPCM buffer depends on the nibbles `h` only. -/
theorem stereoItems_bufferCodes_congr {h : Nibble} {m m' : Memory} {base : Word} {n : Nat}
    (heq : ∀ k < n, h.extract (m.read (base.toNat + k)) = h.extract (m'.read (base.toNat + k))) :
    channelItems .stereo (Layout.stereo.channel h) (bufferCodes m base 0 n) =
      channelItems .stereo (Layout.stereo.channel h) (bufferCodes m' base 0 n) := by
  apply List.ext_getElem?
  intro k
  simp only [stereoItems_getElem?, bufferCodes_sampleIndex]
  split
  · rw [heq k ‹_›]
  · rfl

/-! What a successful stream command leaves (R101 to R108). -/

/-- The frame of a successful stream command with output length `len`: OUT_LEN is `len`, ERR is 0, and beside them only the
channels and the output bytes can differ (20_memory.md R43). -/
structure StreamFrame (s t : State) (len : Nat) : Prop where
  outLen : t.outLen.toNat = len
  bytes : ∀ a, ¬(s.outBase.toNat ≤ a ∧ a < s.outBase.toNat + len) → t.mem.read a = s.mem.read a
  registers : t = { s with ch0 := t.ch0, ch1 := t.ch1, err := 0, outLen := t.outLen, mem := t.mem }

/-- `t` is what ENCODE leaves of `s` when its codes are `codes`. -/
structure Encoded (s t : State) (lay : Layout) (len : Nat) (codes : List (BitVec 4)) : Prop where
  frame : StreamFrame s t len
  length : codes.length = s.inLen.toNat / 2
  packed : ∀ j < len, t.mem.read (s.outBase.toNat + j) = packedByte codes j
  run : ∀ c, EncodesTo s.steps ChannelRegs.initial (t.chan c)
    (channelItems lay c (bufferSamples s.mem s.inBase 0 (s.inLen.toNat / 2))) (channelItems lay c codes)

/-- `t` is what DECODE leaves of `s` when its samples are `preds`. -/
structure Decoded (s t : State) (lay : Layout) (len : Nat) (preds : List (BitVec 16)) : Prop where
  frame : StreamFrame s t len
  length : preds.length = 2 * s.inLen.toNat
  stored : bufferSamples t.mem s.outBase 0 (2 * s.inLen.toNat) = preds.map BitVec.toInt
  run : ∀ c, DecodesTo s.steps ChannelRegs.initial (t.chan c)
    (channelItems lay c (bufferCodes s.mem s.inBase 0 s.inLen.toNat)) (channelItems lay c preds)

section
variable {dir : Direction} {s s' t u : State} {lay : Layout} {len : Nat} {m : Memory}

theorem StreamFrame.of_touches (hok : streamCheck dir s = .ok (lay, len))
    (ht : Touches s.outBase.toNat (s.outBase.toNat + len) s.freshChannels s') :
    StreamFrame s (s'.setOutLen (BitVec.ofNat 32 len)).succeed len := by
  obtain ⟨_, _, _, rfl, hread, -⟩ := ht
  exact ⟨streamCheck_length hok, hread, rfl⟩

theorem StreamFrame.steps (h : StreamFrame s t len) : t.steps = s.steps := by rw [h.registers]

theorem StreamFrame.memFault (h : StreamFrame s t len) : t.memFault = s.memFault := by rw [h.registers]

theorem StreamFrame.channels (h : StreamFrame s t len) : t.channels = s.channels := by rw [h.registers]

theorem StreamFrame.outBase (h : StreamFrame s t len) : t.outBase = s.outBase := by rw [h.registers]

/-- ENCODE past its checks completes. -/
theorem exists_encoded (hf : s.memFault = []) (hm : s.mem.wf = true) (hok : streamCheck .enc s = .ok (lay, len)) :
    ∃ t codes, exec .encode s = .next t ∧ Encoded s t lay len codes := by
  obtain ⟨s', codes, hs, ht, hlen, hout, hrun⟩ := execEncode_ok hf hm hok
  exact ⟨_, codes, hs, .of_touches hok ht, hlen, hout, fun c => by simpa only [chan_setOutLen_succeed] using hrun c⟩

/-- DECODE past its checks completes. -/
theorem exists_decoded (hf : s.memFault = []) (hm : s.mem.wf = true) (hok : streamCheck .dec s = .ok (lay, len)) :
    ∃ t preds, exec .decode s = .next t ∧ Decoded s t lay len preds := by
  obtain ⟨s', preds, hs, ht, hlen, hout, hrun⟩ := execDecode_ok hf hm hok
  exact ⟨_, preds, hs, .of_touches hok ht, hlen, hout, fun c => by simpa only [chan_setOutLen_succeed] using hrun c⟩

theorem encoded_of_next (hok : streamCheck .enc s = .ok (lay, len)) (hs : exec .encode s = .next t)
    (hf : s.memFault = []) (hm : s.mem.wf = true) : ∃ codes, Encoded s t lay len codes := by
  obtain ⟨t', codes, hs', henc⟩ := exists_encoded hf hm hok
  obtain rfl : t = t' := Host.Outcome.next.inj (hs.symm.trans hs')
  exact ⟨codes, henc⟩

theorem decoded_of_next (hok : streamCheck .dec s = .ok (lay, len)) (hs : exec .decode s = .next t)
    (hf : s.memFault = []) (hm : s.mem.wf = true) : ∃ preds, Decoded s t lay len preds := by
  obtain ⟨t', preds, hs', hdec⟩ := exists_decoded hf hm hok
  obtain rfl : t = t' := Host.Outcome.next.inj (hs.symm.trans hs')
  exact ⟨preds, hdec⟩

/-- A stream command without an error passed its checks for the layout of its channel count (R100). -/
theorem streamCheck_of_success (hs : exec dir.command s = .next t) (he : t.err = 0)
    (hlay : layoutOf s.channels = some lay) : ∃ len, streamCheck dir s = .ok (lay, len) := by
  rcases exec_command_eq_next hs with ⟨e, -, rfl⟩ | ⟨lay', len, _, hok, -⟩
  · exact absurd he e.code_ne_zero
  · obtain ⟨hlay', -⟩ := streamCheck_eq_ok.mp hok
    obtain rfl : lay' = lay := Option.some.inj (hlay'.symm.trans hlay)
    exact ⟨len, hok⟩

/-! Decoding what was encoded (R109). -/

/-- A decoder that starts where the encoder started and is fed its codes, then others, gives the encoder's predictions
first (40_channel_codec.md R88). -/
theorem EncodesTo.reconstruction {table : StepTable} {r r' : ChannelRegs} {xs : List Int}
    {codes more : List (BitVec 4)} {preds : List (BitVec 16)}
    (henc : EncodesTo table ChannelRegs.initial r xs codes)
    (hdec : DecodesTo table ChannelRegs.initial r' (codes ++ more) preds) :
    ∃ run, encodeRun table ChannelRegs.initial xs = .ok run ∧ (run.map fun step => step.2.pred) <+: preds := by
  obtain ⟨run, hrun, rfl, -⟩ := henc
  obtain ⟨drun, hdrun, rfl, -⟩ := hdec
  obtain ⟨first, rest, hfirst, rfl⟩ := decodeRun_append hdrun
  obtain ⟨run', hrun', -, hsame⟩ := encodeRun_decodes xs initial_inRange
  obtain rfl : run = run' := Except.ok.inj (hrun.symm.trans hrun')
  obtain rfl : first = run.map Prod.snd := Except.ok.inj (hfirst.symm.trans hsame)
  exact ⟨run, hrun, rest.map ChannelRegs.pred, by simp [Function.comp_def]⟩

/-- ENCODE's output buffer reads as its codes, then padding (41_stream_codec.md R105). -/
theorem Encoded.bufferCodes_eq_append {codes : List (BitVec 4)} (h : Encoded s t lay len codes)
    (hok : streamCheck .enc s = .ok (lay, len)) :
    ∃ more, bufferCodes t.mem t.outBase 0 t.outLen.toNat = codes ++ more := by
  obtain ⟨-, hlen, heven, -⟩ := streamCheck_eq_ok.mp hok
  simp only [outputLength, true_and] at hlen heven
  have hcount := h.length
  rw [h.frame.outBase, h.frame.outLen]
  exact bufferCodes_packed _ _ len 0 codes h.packed (by omega)

/-! Two runs from states that differ in memory only (R110). -/

/-- What ENCODE leaves of a stereo channel is determined by that channel's samples. -/
theorem Encoded.stereo_congr {codes codes' : List (BitVec 4)} (h : Encoded s t .stereo len codes)
    (h' : Encoded (s.setMem m) u .stereo len codes') (nib : Nibble)
    (heq : ∀ k, sampleIndex k nib < s.inLen.toNat / 2 →
      bufferSample m s.inBase (sampleIndex k nib) = bufferSample s.mem s.inBase (sampleIndex k nib)) :
    t.chan (Layout.stereo.channel nib) = u.chan (Layout.stereo.channel nib) ∧ ∀ j < t.outLen.toNat,
      nib.extract (t.mem.read (s.outBase.toNat + j)) = nib.extract (u.mem.read (s.outBase.toNat + j)) := by
  have hrun' := h'.run (Layout.stereo.channel nib)
  simp only [State.setMem_mem, State.setMem_steps, State.setMem_inBase, State.setMem_inLen,
    stereoItems_bufferSamples_congr heq] at hrun'
  obtain ⟨hchan, hcodes⟩ := (h.run _).unique hrun'
  refine ⟨hchan, fun j hj => ?_⟩
  rw [h.frame.outLen] at hj
  rw [h.packed j hj, extract_packedByte, hcodes, ← extract_packedByte, ← h'.packed j hj, State.setMem_outBase]

/-- What DECODE leaves of a stereo channel is determined by that channel's nibbles. -/
theorem Decoded.stereo_congr {preds preds' : List (BitVec 16)} (h : Decoded s t .stereo len preds)
    (h' : Decoded (s.setMem m) u .stereo len preds') (nib : Nibble)
    (heq : ∀ j < s.inLen.toNat,
      nib.extract (m.read (s.inBase.toNat + j)) = nib.extract (s.mem.read (s.inBase.toNat + j))) :
    t.chan (Layout.stereo.channel nib) = u.chan (Layout.stereo.channel nib) ∧ ∀ j < s.inLen.toNat,
      bufferSample t.mem s.outBase (sampleIndex j nib) = bufferSample u.mem s.outBase (sampleIndex j nib) := by
  have hrun' := h'.run (Layout.stereo.channel nib)
  have hstored' := h'.stored
  simp only [State.setMem_mem, State.setMem_steps, State.setMem_inBase, State.setMem_inLen, State.setMem_outBase,
    stereoItems_bufferCodes_congr heq] at hrun' hstored'
  obtain ⟨hchan, hpreds⟩ := (h.run _).unique hrun'
  refine ⟨hchan, fun j hj => ?_⟩
  have hitems : channelItems .stereo (Layout.stereo.channel nib) (bufferSamples t.mem s.outBase 0 (2 * s.inLen.toNat)) =
      channelItems .stereo (Layout.stereo.channel nib) (bufferSamples u.mem s.outBase 0 (2 * s.inLen.toNat)) := by
    rw [h.stored, hstored', channelItems_map, channelItems_map, hpreds]
  have hslot := congrArg (·[j]?) hitems
  simpa only [stereoItems_getElem?, bufferSamples_getElem?, if_pos (sampleIndex_lt.mpr hj), Nat.zero_add,
    Option.some.injEq] using hslot

end

end Sys2Proof.Machine

namespace Sys2Proof

open Machine

/-- Settles O28: ENCODE past its checks completes, with the codes of each channel's own run. -/
theorem encodePacksEachChannelsRun : Obligations.EncodePacksEachChannelsRun := by
  unfold Obligations.EncodePacksEachChannelsRun
  intro s lay len hm hf hready
  obtain ⟨t, codes, hs, henc⟩ := exists_encoded hf hm hready.streamCheck
  exact ⟨t, codes, hs, henc.frame.outLen, henc.length, henc.packed, henc.frame.bytes, henc.run, henc.frame.registers⟩

/-- Settles O29: DECODE past its checks completes, with the samples of each channel's own run. -/
theorem decodeUnpacksEachChannelsRun : Obligations.DecodeUnpacksEachChannelsRun := by
  unfold Obligations.DecodeUnpacksEachChannelsRun
  intro s lay len hm hf hready
  obtain ⟨t, preds, hs, hdec⟩ := exists_decoded hf hm hready.streamCheck
  exact ⟨t, preds, hs, hdec.frame.outLen, hdec.length, hdec.stored, hdec.frame.bytes, hdec.run, hdec.frame.registers⟩

/-- Settles O30: the decoder's input begins with the encoder's codes, so each channel's run begins with the encoder's. -/
theorem decodeOfEncodedStreamIsReconstruction : Obligations.DecodeOfEncodedStreamIsReconstruction := by
  unfold Obligations.DecodeOfEncodedStreamIsReconstruction
  intro s t u v lay outBase outCap hinv hf hchannels hs ht hu hdecode hv c
  have hlay : layoutOf s.channels = some lay := by rw [hchannels]; cases lay <;> rfl
  obtain ⟨len, hok⟩ := streamCheck_of_success (dir := .enc) hs ht hlay
  obtain ⟨codes, henc⟩ := encoded_of_next hok hs hf hinv.mem
  obtain ⟨more, hcodes⟩ := henc.bufferCodes_eq_append hok
  obtain ⟨more', hshare⟩ := channelItems_prefix lay c codes more
  subst hu
  obtain ⟨len', hok'⟩ := streamCheck_of_success (dir := .dec) hdecode hv
    (show layoutOf t.channels = some lay by rw [henc.frame.channels, hlay])
  obtain ⟨preds, hdec⟩ := decoded_of_next hok' hdecode (henc.frame.memFault.trans hf) (exec_keeps_inv hinv hs).mem
  have hrun := hdec.run c
  simp only [hcodes, hshare, henc.frame.steps] at hrun
  obtain ⟨run, henc', hprefix⟩ := (henc.run c).reconstruction hrun
  refine ⟨run, henc', ?_⟩
  rw [hdec.stored, channelItems_map]
  simpa [Function.comp_def] using hprefix.map BitVec.toInt

/-- Settles O32: each channel's run is a function of its own share, for each of the two nibbles. -/
theorem stereoChannelsDoNotMix : Obligations.StereoChannelsDoNotMix := by
  unfold Obligations.StereoChannelsDoNotMix
  intro s t t' m hinv hm hf hchannels
  have hlay : layoutOf s.channels = some .stereo := by rw [hchannels]; rfl
  refine ⟨fun hs hs' ht => ?_, fun hs hs' ht => ?_⟩
  · obtain ⟨len, hok⟩ := streamCheck_of_success (dir := .enc) hs ht hlay
    obtain ⟨codes, henc⟩ := encoded_of_next hok hs hf hinv.mem
    obtain ⟨codes', henc'⟩ := encoded_of_next (s := s.setMem m) hok hs' hf hm
    exact ⟨henc.stereo_congr henc' .high, henc.stereo_congr henc' .low⟩
  · obtain ⟨len, hok⟩ := streamCheck_of_success (dir := .dec) hs ht hlay
    obtain ⟨preds, hdec⟩ := decoded_of_next hok hs hf hinv.mem
    obtain ⟨preds', hdec'⟩ := decoded_of_next (s := s.setMem m) hok hs' hf hm
    exact ⟨hdec.stereo_congr hdec' .high, hdec.stereo_congr hdec' .low⟩

end Sys2Proof

namespace Sys2Proof.Machine

/-! What a command leaves in STATUS (60_exceptions.md R121 to R125). -/

section
variable {s t : State} {dir : Direction} {e : CmdError} {i : Instr}

/-- The command errors after ERR_ILLEGAL have the codes 2 to 6 (R122). -/
theorem CmdError.two_le_code (h : e ≠ .illegal) : 2 ≤ e.code.toNat := by
  cases e with
  | illegal => exact absurd rfl h
  | _ => decide

/-- A command's next state: ERR 0 and STICKY kept, or a stream command's prologue raised an error (R121, R124). -/
theorem exec_succeeds_or_raises (h : exec i s = .next t) : (t.err = 0 ∧ t.sticky = s.sticky) ∨
    ∃ dir e, i = Direction.command dir ∧ streamCheck dir s = .error e ∧ t = s.raise e := by
  rcases exec_eq_next h with ⟨-, rfl⟩ | ⟨c, -, rfl⟩ | ⟨c, code, r, -, -, rfl⟩ | ⟨c, x, code, r, -, -, rfl⟩ |
    ⟨dir, hi, ⟨e, he, rfl⟩ | ⟨lay, len, s', -, ht, rfl⟩⟩
  · exact .inl ⟨rfl, rfl⟩
  · exact .inl ⟨rfl, s.setChan_sticky c _⟩
  · exact .inl ⟨rfl, s.setChan_sticky c r⟩
  · exact .inl ⟨rfl, s.setChan_sticky c r⟩
  · exact .inr ⟨dir, e, by cases dir <;> exact hi, he, rfl⟩
  · obtain ⟨_, _, _, rfl, -⟩ := ht
    exact .inl ⟨rfl, rfl⟩

/-- A word written to CMD leaves ERR 0 and STICKY as it was, or ERR not 0 and STICKY 1 (R121, R124). -/
theorem runWord_status {w : Word} (h : runWord w s = .next t) :
    (t.err = 0 ∧ t.sticky = s.sticky) ∨ (t.err ≠ 0 ∧ t.sticky = true) := by
  rcases runWord_eq_next h with ⟨i, -, hi⟩ | rfl
  · exact (exec_succeeds_or_raises hi).imp_right fun ⟨_, e, _, _, ht⟩ => ht ▸ ⟨e.code_ne_zero, rfl⟩
  · exact .inr ⟨CmdError.illegal.code_ne_zero, rfl⟩

end

/-! STICKY after each kind of access (R125, 10_state.md R22). -/

section
variable {s t : State}

/-- The next access clears STICKY: the reset, or a write to STATUS with bit 4 set. -/
def ClearsSticky (s : State) : Prop :=
  ∃ rest, s.pending = .reset :: rest ∨ ∃ w : Word, w.getLsbD 4 = true ∧ s.pending = .regWrite 0x04 4 w :: rest

theorem not_clearsSticky_iff : ¬ClearsSticky s ↔ ∀ rest, s.pending ≠ .reset :: rest ∧
    ∀ w : Word, w.getLsbD 4 = true → s.pending ≠ .regWrite 0x04 4 w :: rest := by
  simp only [ClearsSticky, not_exists, not_or, not_and, ne_eq]

theorem not_clearsSticky_of_cmdWrite {w : Word} {rest : List HostAccess}
    (hp : s.pending = .regWrite 0x00 4 w :: rest) : ¬ClearsSticky s := by
  rintro ⟨_, hother | ⟨_, -, hother⟩⟩ <;> cases hp.symm.trans hother

/-- Only STATUS's own write reaches STICKY (R22). -/
theorem State.setReg_sticky {r : Reg} (hr : r ≠ .status) (v : Word) : (s.setReg r v).sticky = s.sticky := by
  cases r with
  | status => exact absurd rfl hr
  | _ => rfl

theorem step_sticky_of_clears (hc : ClearsSticky s) (hs : step s = .next t) : t.sticky = false := by
  obtain ⟨rest, hp | ⟨w, hw, hp⟩⟩ := hc
  · rw [step_cons hp] at hs
    rw [← Host.Outcome.next.inj hs]
    rfl
  · rw [step_writeReg .status nofun hp] at hs
    rw [← Host.Outcome.next.inj hs]
    exact if_pos hw

/-- An access that is neither a write to CMD nor clears STICKY keeps it. -/
theorem step_sticky_of_other (hcmd : ¬∃ w rest, s.pending = .regWrite 0x00 4 w :: rest) (hc : ¬ClearsSticky s)
    (hs : step s = .next t) : t.sticky = s.sticky := by
  rcases step_eq_next hs with ⟨-, rfl⟩ | ⟨a, rest, hp, hread | hword | hreg | hunmapped | hmemRead | hmemWrite | hreset⟩
  · rfl
  · obtain ⟨_, _, -, rfl⟩ := hread
    rfl
  · obtain ⟨w, rfl, -⟩ := hword
    exact absurd ⟨w, rest, hp⟩ hcmd
  · obtain ⟨off, v, r, rfl, -, hr, rfl⟩ := hreg
    by_cases hstatus : r = .status
    · subst hstatus
      obtain rfl : 0x04 = off := regOffset_of_regAt hr
      exact if_neg fun hv => hc ⟨rest, .inr ⟨v, hv, hp⟩⟩
    · exact State.setReg_sticky hstatus v
  · obtain ⟨_, _, -, -, -, rfl⟩ := hunmapped
    rfl
  · obtain ⟨_, -, rfl⟩ := hmemRead
    rfl
  · obtain ⟨_, _, -, rfl⟩ := hmemWrite
    rfl
  · obtain ⟨rfl, -⟩ := hreset
    exact absurd ⟨rest, .inl hp⟩ hc

end

/-! The prologue's checks, one equation per outcome (41_stream_codec.md R100, 60_exceptions.md R123). -/

section
variable {s t : State} {dir : Direction} {lay : Layout} {len : Nat}

theorem layoutOf_eq_none {n : BitVec 2} : layoutOf n = none ↔ n = 0 ∨ n = 3 := by revert n; decide

theorem pastEnd_iff {base : Word} : pastEnd base len = true ↔ base.toNat + len > 2 ^ 32 := decide_eq_true_iff

/-- The interval test finds exactly the ranges with an address in common (20_memory.md R49). -/
theorem rangesMeet_iff {inBase outBase : Word} {inLen outLen : Nat} : rangesMeet inBase inLen outBase outLen = true ↔
    ∃ a, (inBase.toNat ≤ a ∧ a < inBase.toNat + inLen) ∧ (outBase.toNat ≤ a ∧ a < outBase.toNat + outLen) := by
  simp only [rangesMeet, Bool.and_eq_true, decide_eq_true_eq]
  constructor
  · intro h
    exact ⟨max inBase.toNat outBase.toNat, by omega, by omega⟩
  · rintro ⟨a, hin, hout⟩
    omega

theorem streamCheck_chan (h : s.channels = 0 ∨ s.channels = 3) : streamCheck dir s = .error .chan := by
  rw [streamCheck, layoutOf_eq_none.mpr h]

theorem streamCheck_of_channels (h : ¬(s.channels = 0 ∨ s.channels = 3)) :
    ∃ lay, streamCheck dir s = rangeCheck dir s lay (outputLength dir s.inLen.toNat) := by
  obtain ⟨lay, hlay⟩ := Option.ne_none_iff_exists'.mp (mt layoutOf_eq_none.mp h)
  exact ⟨lay, by rw [streamCheck, hlay]⟩

theorem rangeCheck_len (h : dir = .enc ∧ s.inLen.toNat % 2 = 1) : rangeCheck dir s lay len = .error .len := if_pos h

theorem rangeCheck_cap (hlen : ¬(dir = .enc ∧ s.inLen.toNat % 2 = 1)) (h : len > s.outCap.toNat) :
    rangeCheck dir s lay len = .error .cap := by
  rw [rangeCheck, if_neg hlen, if_pos h]

theorem rangeCheck_range (hlen : ¬(dir = .enc ∧ s.inLen.toNat % 2 = 1)) (hcap : ¬len > s.outCap.toNat)
    (h : s.inBase.toNat + s.inLen.toNat > 2 ^ 32 ∨ s.outBase.toNat + len > 2 ^ 32) :
    rangeCheck dir s lay len = .error .range := by
  rw [rangeCheck, if_neg hlen, if_neg hcap, if_pos (by rwa [Bool.or_eq_true, pastEnd_iff, pastEnd_iff])]

/-- Past the three checks before it, the last one is whether the ranges meet. -/
theorem rangeCheck_of_inSpace (hlen : ¬(dir = .enc ∧ s.inLen.toNat % 2 = 1)) (hcap : ¬len > s.outCap.toNat)
    (hrange : ¬(s.inBase.toNat + s.inLen.toNat > 2 ^ 32 ∨ s.outBase.toNat + len > 2 ^ 32)) :
    rangeCheck dir s lay len =
      if rangesMeet s.inBase s.inLen.toNat s.outBase len then .error .overlap else .ok (lay, len) := by
  rw [rangeCheck, if_neg hlen, if_neg hcap, if_neg (by rwa [Bool.or_eq_true, pastEnd_iff, pastEnd_iff])]

/-- A stream command past its checks leaves ERR 0 (60_exceptions.md R124). -/
theorem exec_command_err_of_check_ok (h : streamCheck dir s = .ok (lay, len)) (hs : exec dir.command s = .next t) :
    t.err = 0 := by
  obtain ⟨_, -, rfl⟩ := streamBody_of_next h hs
  rfl

theorem Direction.command_eq_encode : dir.command = .encode ↔ dir = .enc := by cases dir <;> decide

theorem exists_command_length {i : Instr}
    (h : i = .encode ∧ len = (s.inLen.toNat + 3) / 4 ∨ i = .decode ∧ len = 4 * s.inLen.toNat) :
    ∃ dir : Direction, i = dir.command ∧ len = outputLength dir s.inLen.toNat := by
  rcases h with h | h
  · exact ⟨.enc, h⟩
  · exact ⟨.dec, h⟩

end

/-! Faults (60_exceptions.md R126): only a command can fault, and none does in a state that meets the invariant when no
buffer access fails. -/

section
variable {s : State} {f : Fault}

theorem runWord_fault {w : Word} (h : runWord w s = .fault f) : ∃ i, exec i s = .fault f := by
  cases hd : decode w with
  | ok i => exact ⟨i, by rwa [runWord_ok hd] at h⟩
  | error e =>
    rw [runWord_error hd] at h
    cases h

theorem performAccess_fault {a : HostAccess} (h : performAccess a s = .fault f) : ∃ i, exec i s = .fault f := by
  cases a with
  | regRead off bytes =>
    rw [performAccess] at h
    split at h <;> cases h
  | regWrite off bytes v =>
    rw [performAccess] at h
    split at h
    · rcases writeOffset_cases off v s with ⟨-, hw⟩ | ⟨-, _, -, hw⟩ <;> rw [hw] at h
      · exact runWord_fault h
      · cases h
    · cases h
  | memRead | memWrite | reset => cases h

theorem step_fault (h : step s = .fault f) : ∃ i rest, exec i { s with pending := rest } = .fault f := by
  cases hp : s.pending with
  | nil =>
    rw [step_idle hp] at h
    cases h
  | cons a rest =>
    rw [step_cons hp] at h
    obtain ⟨i, hi⟩ := performAccess_fault h
    exact ⟨i, rest, hi⟩

theorem State.Inv.chan (h : s.Inv) (c : Channel) : (s.chan c).inRange := ChannelsInRange.chan ⟨h.ch0, h.ch1⟩ c

theorem exec_command_completes (dir : Direction) (hinv : s.Inv) (hf : s.memFault = []) :
    ∃ t, exec dir.command s = .next t := by
  cases hok : streamCheck dir s with
  | error e => exact ⟨_, exec_command_of_check_error hok⟩
  | ok p =>
    cases dir with
    | enc =>
      obtain ⟨t, _, hs, -⟩ := exists_encoded hf hinv.mem hok
      exact ⟨t, hs⟩
    | dec =>
      obtain ⟨t, _, hs, -⟩ := exists_decoded hf hinv.mem hok
      exact ⟨t, hs⟩

/-- Every step-table lookup is in range (10_state.md R14) and every buffer access succeeds (20_memory.md R50). -/
theorem exec_completes (i : Instr) (hinv : s.Inv) (hf : s.memFault = []) : ∃ t, exec i s = .next t := by
  cases i with
  | nop | chreset => exact ⟨_, rfl⟩
  | decstep c code => exact ⟨_, exec_decstep_of_ok (decodeUpdate_ok (hinv.chan c))⟩
  | encstep c x =>
    obtain ⟨code, r, hr, -⟩ := encodeStep_ok (t := s.steps) (sample := x) (hinv.chan c)
    exact ⟨_, exec_encstep_of_ok hr⟩
  | encode => exact exec_command_completes .enc hinv hf
  | decode => exact exec_command_completes .dec hinv hf

end

end Sys2Proof.Machine

namespace Sys2Proof

open Machine

/-- Settles O17: each case of the chain is the prologue's equation for it, and a prologue without an error ends in ERR 0. -/
theorem streamErrorsInPriorityOrder : Obligations.StreamErrorsInPriorityOrder := by
  unfold Obligations.StreamErrorsInPriorityOrder
  refine ⟨fun s w e rest => step_illegalWord, fun s i len hi => ?_⟩
  obtain ⟨dir, rfl, rfl⟩ := exists_command_length hi
  simp only [Direction.command_eq_encode]
  split_ifs with hchan hlen hcap hrange
  · exact exec_command_of_check_error (streamCheck_chan hchan)
  all_goals obtain ⟨lay, hcheck⟩ := streamCheck_of_channels (dir := dir) hchan
  · exact exec_command_of_check_error (hcheck.trans (rangeCheck_len hlen))
  · exact exec_command_of_check_error (hcheck.trans (rangeCheck_cap hlen hcap))
  · exact exec_command_of_check_error (hcheck.trans (rangeCheck_range hlen hcap hrange))
  · rw [rangeCheck_of_inSpace hlen hcap hrange] at hcheck
    refine ⟨fun hmeet => ?_, fun hapart t hs => ?_⟩
    · exact exec_command_of_check_error (hcheck.trans (if_pos (rangesMeet_iff.mpr hmeet)))
    · have hno := mt rangesMeet_iff.mp fun ⟨a, hin, hout⟩ => hapart a hin hout
      exact exec_command_err_of_check_ok (hcheck.trans (if_neg hno)) hs

/-- Settles O18, by the kind of the access: a command, a clearing access, or one that keeps STICKY. -/
theorem stickyRecordsFailures : Obligations.StickyRecordsFailures := by
  unfold Obligations.StickyRecordsFailures
  intro s t hs
  rw [← not_clearsSticky_iff]
  by_cases hcmd : ∃ w rest, s.pending = .regWrite 0x00 4 w :: rest
  · obtain ⟨w, rest, hp⟩ := hcmd
    rcases runWord_status ((step_cmdWrite hp).symm.trans hs) with ⟨herr, hsticky⟩ | ⟨herr, hsticky⟩
    · rw [or_iff_right fun ⟨_, _, _, hne⟩ => hne herr, and_iff_left (not_clearsSticky_of_cmdWrite hp), hsticky]
    · exact iff_of_true hsticky (.inl ⟨w, rest, hp, herr⟩)
  · rw [or_iff_right fun ⟨w, rest, hp, _⟩ => hcmd ⟨w, rest, hp⟩]
    by_cases hclear : ClearsSticky s
    · exact iff_of_false (by simp [step_sticky_of_clears hclear hs]) fun h => h.2 hclear
    · rw [and_iff_left hclear, step_sticky_of_other hcmd hclear hs]

/-- Settles O15: a command fails only by `raise`. -/
theorem failedCommandChangesOnlyStatus : Obligations.FailedCommandChangesOnlyStatus := by
  unfold Obligations.FailedCommandChangesOnlyStatus
  refine ⟨fun i s t hs herr => ?_, fun s w e rest => step_illegalWord⟩
  rcases exec_succeeds_or_raises hs with ⟨h0, -⟩ | ⟨_, e, -, -, rfl⟩
  · exact absurd h0 herr
  · rfl

/-- Settles O16: past decoding only a prologue raises, and never ERR_ILLEGAL. -/
theorem successfulCommandLeavesSticky : Obligations.SuccessfulCommandLeavesSticky := by
  unfold Obligations.SuccessfulCommandLeavesSticky
  intro i s t hs
  refine (exec_succeeds_or_raises hs).imp_right ?_
  rintro ⟨dir, e, rfl, he, rfl⟩
  exact ⟨by cases dir <;> decide, CmdError.two_le_code (streamCheck_error_code he), e.code_le, rfl⟩

/-- Settles O11: a fault could only come from a command, and every command completes. -/
theorem noFaultUnderInvariant : Obligations.NoFaultUnderInvariant := by
  unfold Obligations.NoFaultUnderInvariant
  intro s f hinv hf hs
  obtain ⟨i, rest, hfault⟩ := step_fault hs
  obtain ⟨t, hnext⟩ := exec_completes i (hinv.withPending rest) hf
  rw [hnext] at hfault
  cases hfault

/-- Settles O8, on the step's case of no pending access. -/
theorem idleBlockHoldsItsState : Obligations.IdleBlockHoldsItsState := by
  unfold Obligations.IdleBlockHoldsItsState
  exact fun _ => step_idle

end Sys2Proof

namespace Sys2Proof.Machine

/-- A step that takes the reset is the block's reset, and the accesses behind it stay (70_reset_and_hazards.md R140). -/
theorem step_reset {s : State} {rest : List HostAccess} (h : s.pending = .reset :: rest) :
    step s = .next ({ s with pending := rest } : State).blockReset := by
  rw [step_cons h, performAccess]

end Sys2Proof.Machine

namespace Sys2Proof

open Machine

/-- Settles O35: the step is `blockReset`, which, like `State.reset`, takes its register values from `State.resetWith`,
where they stand as in 70_reset_and_hazards.md R141. -/
theorem resetWritesTheListedValues : Obligations.ResetWritesTheListedValues := by
  unfold Obligations.ResetWritesTheListedValues
  exact ⟨fun _ _ hp => step_reset hp, rfl⟩

end Sys2Proof
